-- ==== Sys2Proof/Word.lean ====
section
/-! DEFINITION. The value types of the codec block: bytes, the 32-bit header, identifier and register word, and byte
sequences (spec 00_scope.md R8 to R10). -/

namespace Sys2Proof

/-- A byte: 8 bits, bit 0 the least significant (R8). -/
abbrev Byte := BitVec 8

/-- A 32-bit word: a request header (R59), an identifier word (R52), the register `CFG` (R14). -/
abbrev Word := BitVec 32

/-- A finite byte sequence, offset 0 first (R10): a wire buffer `WB` or a payload `PL` (R30). -/
abbrev Bytes := List Byte

/-- `zeros(n)` of R10. -/
def zeros (n : Nat) : Bytes := List.replicate n 0

end Sys2Proof
end

