-- ==== Sys2Proof/Config.lean ====
section
/-! DEFINITION. What is fixed for one block: the constants of R6, the decided parameters of R7, and the one value the
spec leaves open, `ROUND_TIE` (R91, D18), as a constant with no body. -/

namespace Sys2Proof.Config

/-- `CLASSIC_FRAME_SIZE` (R6). -/
abbrev classicFrameSize : Nat := 16
/-- `FD_FRAME_SIZE` (R6). -/
abbrev fdFrameSize : Nat := 72
/-- `MIN_FRAME_SIZE` (R6): parse rejects a shorter buffer. -/
abbrev minFrameSize : Nat := 8
/-- `HEADER_SIZE` (R6): offset of the payload in both frame forms. -/
abbrev headerSize : Nat := 8
/-- `CLASSIC_MAX_DATA` (R6). -/
abbrev classicMaxData : Nat := 8
/-- `FD_MAX_DATA` (R6). -/
abbrev fdMaxData : Nat := 64
/-- `ID_MASK` (R6): the low 29 bits of the identifier word. -/
abbrev idMask : Word := 0x1FFFFFFF#32
/-- `EFF_FLAG` (R6): bit 31 of the identifier word. -/
abbrev effFlag : Word := 0x80000000#32
/-- `CLASSIC_DLC_MASK` (R6). -/
abbrev classicDlcMask : Byte := 0x0F#8
/-- `FD_AUTODETECT_SIZE` (R6). -/
abbrev fdAutodetectSize : Nat := 72
/-- `SIG_LEN_MIN` (R6). -/
abbrev sigLenMin : Nat := 1
/-- `SIG_LEN_MAX` (R6). -/
abbrev sigLenMax : Nat := 64

/-- Default extended (R6): what `send_raw` takes when the caller omits `extended` (R149). The block itself is given the
flag on every BUILD (R133). The other two defaults of R6, big-endian and classic, are `CFG` after reset (R27). -/
abbrev defaultExtended : Bool := false

/-- `WBUF_MAX` (R7, D14): most bytes a PARSE request carries. -/
abbrev wbufMax : Nat := 72
/-- `DATA_IN_MAX` (R7, D13): most data bytes a BUILD request presents. -/
abbrev dataInMax : Nat := 255
/-- `PAYLOAD_MAX` (R7, D25): most payload bytes a SIG or MSG request carries, and the largest message `dlc`. -/
abbrev payloadMax : Nat := 64

/-- `ROUND_TIE` (R91, D18, OPEN). For the half-integer `k + 1/2`, whether `round` answers the upper neighbour `k + 1`
(`true`) or the lower one `k` (`false`). One fixed function, as R26 asks, and nothing else is known of it: a FREE
VALUE, log entry 1. -/
opaque roundTieUp : Int → Bool

end Sys2Proof.Config
end

