-- ==== Sys2Proof/Syntax.lean ====
section
/-! DEFINITION. The records a request carries (10_state.md R17 to R20) and the operations (30_encoding.md R60): one
constructor of `Instr` for each row of the operation map, its operands the body fields of R20. -/

namespace Sys2Proof

/-- The key of a signal or message name: "opaque key; a string in DOC00" (R17, R18, D31). -/
abbrev Name := String

/-- `endianness` of a signal (R17): the order in which its bits stand in the payload. It has nothing to do with
`CFG.ENDIAN` (R34). -/
inductive BitOrder where
  /-- Intel, DBC digit `1` (R95). -/
  | little
  /-- Motorola, DBC digit `0` (R96). -/
  | big
  deriving DecidableEq, Repr

/-- `sign` of a signal (R17): DBC sign character `+` or `-`. -/
inductive Sign where
  | unsigned
  | signed
  deriving DecidableEq, Repr

/-- The descriptor of one signal (R17). Its ranges (R29) are the check `DbcSignal.wellFormed`. -/
structure DbcSignal where
  name : Name
  /-- May be presented negative, and is then rejected (R93, R99). -/
  startBit : Int
  length : Nat
  endianness : BitOrder
  sign : Sign
  factor : Rat
  offset : Rat
  deriving DecidableEq, Repr

/-- The descriptor of one message (R18), its signals in list order. -/
structure DbcMessage where
  id : Nat
  name : Name
  dlc : Nat
  signals : List DbcSignal
  deriving DecidableEq, Repr

/-- A value map (R19): a partial function from signal name to physical value, held as a list of pairs in which no
key stands twice (`ValueMap.wellFormed`; log entry 5). -/
abbrev ValueMap := List (Name × Rat)

/-- The fourteen operations with their operands: header field `EXT` where the operation has it (R59), then the body
fields of R20. -/
inductive Instr where
  /-- `CFG.WR` (R130). -/
  | cfgWr (value : Word)
  /-- `CFG.RD` (R131). -/
  | cfgRd
  /-- `BUILD.D` (R73): the form is `CFG.FD`. -/
  | buildD (ext : Bool) (id : Word) (data : Bytes)
  /-- `BUILD.C` (R71). -/
  | buildC (ext : Bool) (id : Word) (data : Bytes)
  /-- `BUILD.FD` (R72). -/
  | buildFd (ext : Bool) (id : Word) (data : Bytes)
  /-- `PARSE.AUTO` (R75). -/
  | parseAuto (buf : Bytes)
  /-- `PARSE.C` (R76). -/
  | parseC (buf : Bytes)
  /-- `PARSE.FD` (R77). -/
  | parseFd (buf : Bytes)
  /-- `SIG.PACK` (R103). -/
  | sigPack (sig : DbcSignal) (raw : Int) (dlc : Nat) (pl : Bytes)
  /-- `SIG.UNPACK` (R104). -/
  | sigUnpack (sig : DbcSignal) (pl : Bytes)
  /-- `SIG.ENC` (R105). -/
  | sigEnc (sig : DbcSignal) (phys : Rat) (dlc : Nat) (pl : Bytes)
  /-- `SIG.DEC` (R106). -/
  | sigDec (sig : DbcSignal) (pl : Bytes)
  /-- `MSG.ENC` (R121). -/
  | msgEnc (msg : DbcMessage) (values : ValueMap)
  /-- `MSG.DEC` (R123). -/
  | msgDec (msg : DbcMessage) (pl : Bytes)
  deriving DecidableEq, Repr

/-- The body of a request: the typed fields `req.<field>` of R20. Every field stands in the record and an operation
reads only its own (R11, R20), so a header and a body cannot disagree in type. How the fields lie on ports is
`PORT_ENCODING`, open, and nothing here depends on it (D11; log entry 3). -/
structure Body where
  id : Word
  data : Bytes
  buf : Bytes
  sig : DbcSignal
  raw : Int
  phys : Rat
  dlc : Nat
  pl : Bytes
  msg : DbcMessage
  values : ValueMap
  value : Word
  deriving DecidableEq, Repr

/-- A request (R20): the 32-bit header word of R59, then the body. -/
structure Request where
  header : Word
  body : Body
  deriving DecidableEq, Repr

end Sys2Proof
end

