-- ==== Sys2Proof/WellFormed.lean ====
section
/-! DEFINITION. Which descriptors are well formed (10_state.md R29) and which operands a request can carry at all
(R7, R19, R20). A descriptor that is not well formed is refused by the meaning that reads it; operands no request can
carry are refused by the step. -/

namespace Sys2Proof

/-- R29: `1 ≤ length ≤ 64` and `factor ≠ 0`. A negative `start_bit` is not ill formed. -/
def DbcSignal.wellFormed (sig : DbcSignal) : Bool :=
  Config.sigLenMin ≤ sig.length && sig.length ≤ Config.sigLenMax && sig.factor != 0

/-- R29: `dlc ≤ 64` and every signal in the list well formed. -/
def DbcMessage.wellFormed (msg : DbcMessage) : Bool :=
  msg.dlc ≤ Config.payloadMax && msg.signals.all DbcSignal.wellFormed

/-- R19: a value map is a function of its key, so no key stands twice. -/
def ValueMap.wellFormed (m : ValueMap) : Bool :=
  decide (m.map Prod.fst).Nodup

/-- The descriptor an operation carries is well formed (R29); true of an operation that carries none. -/
def Instr.descriptorOk : Instr → Bool
  | .cfgWr _ | .cfgRd => true
  | .buildD _ _ _ | .buildC _ _ _ | .buildFd _ _ _ => true
  | .parseAuto _ | .parseC _ | .parseFd _ => true
  | .sigPack sig _ _ _ => sig.wellFormed
  | .sigUnpack sig _ => sig.wellFormed
  | .sigEnc sig _ _ _ => sig.wellFormed
  | .sigDec sig _ => sig.wellFormed
  | .msgEnc msg _ => msg.wellFormed
  | .msgDec msg _ => msg.wellFormed

/-- The operands are of the sizes a request carries (R7, R20: `DATA_IN_MAX`, `WBUF_MAX`, `PAYLOAD_MAX`) and a value map
is a map (R19). -/
def Instr.presentable : Instr → Bool
  | .cfgWr _ | .cfgRd => true
  | .buildD _ _ data | .buildC _ _ data | .buildFd _ _ data => data.length ≤ Config.dataInMax
  | .parseAuto buf | .parseC buf | .parseFd buf => buf.length ≤ Config.wbufMax
  | .sigPack _ _ dlc pl | .sigEnc _ _ dlc pl => dlc ≤ Config.payloadMax && pl.length ≤ Config.payloadMax
  | .sigUnpack _ pl | .sigDec _ pl => pl.length ≤ Config.payloadMax
  | .msgEnc _ values => values.wellFormed
  | .msgDec _ pl => pl.length ≤ Config.payloadMax

/-- A well-formed operation: one a request can carry, with a well-formed descriptor. -/
def Instr.wellFormed (i : Instr) : Bool := i.presentable && i.descriptorOk

end Sys2Proof
end

