-- ==== Sys2Proof/Decode.lean ====
section
/-! DEFINITION. Request decoding (30_encoding.md R59 to R61), total on every header and body, and the encoder of R59
and R60 beside it. -/

namespace Sys2Proof

/-- The fourteen operations of R60 without their operands. -/
inductive Op where
  | cfgWr | cfgRd
  | buildD | buildC | buildFd
  | parseAuto | parseC | parseFd
  | sigPack | sigUnpack | sigEnc | sigDec
  | msgEnc | msgDec
  deriving DecidableEq, Repr

/-- One row of the operation map (R60): the row selects `op` when `header & mask = pattern`. -/
structure OpRow where
  op : Op
  pattern : Word
  mask : Word
  deriving DecidableEq, Repr

/-- The operation map of R60, in its order. -/
def opTable : List OpRow :=
  [ ⟨.cfgWr, 0x00000001#32, 0xFFFFFFFF#32⟩,
    ⟨.cfgRd, 0x00000002#32, 0xFFFFFFFF#32⟩,
    ⟨.buildD, 0x00000010#32, 0xFFFFFEFF#32⟩,
    ⟨.buildC, 0x00000011#32, 0xFFFFFEFF#32⟩,
    ⟨.buildFd, 0x00000012#32, 0xFFFFFEFF#32⟩,
    ⟨.parseAuto, 0x00000018#32, 0xFFFFFFFF#32⟩,
    ⟨.parseC, 0x00000019#32, 0xFFFFFFFF#32⟩,
    ⟨.parseFd, 0x0000001A#32, 0xFFFFFFFF#32⟩,
    ⟨.sigPack, 0x00000020#32, 0xFFFFFFFF#32⟩,
    ⟨.sigUnpack, 0x00000021#32, 0xFFFFFFFF#32⟩,
    ⟨.sigEnc, 0x00000022#32, 0xFFFFFFFF#32⟩,
    ⟨.sigDec, 0x00000023#32, 0xFFFFFFFF#32⟩,
    ⟨.msgEnc, 0x00000030#32, 0xFFFFFFFF#32⟩,
    ⟨.msgDec, 0x00000031#32, 0xFFFFFFFF#32⟩ ]

/-- The row's test on a header (R60). -/
def OpRow.selects (row : OpRow) (header : Word) : Bool := header &&& row.mask == row.pattern

/-- The operation a header selects (R60). -/
def selectOp (header : Word) : Option Op :=
  (opTable.find? fun row => row.selects header).map OpRow.op

/-- The header field `EXT`, bit 8 (R59). -/
def headerExt (header : Word) : Bool := header.getLsbD 8

/-- Why a header is illegal (R61). The block answers all three alike, with `IllegalRequest`; the name is for the
reader. -/
inductive Illegal where
  /-- Reserved bits 31:9 not all zero. -/
  | reservedBits
  /-- `EXT = 1` in an operation other than the three BUILDs. -/
  | extOutsideBuild
  /-- `OP` is none of the fourteen values of R60. -/
  | unknownOp
  deriving DecidableEq, Repr

/-- Names the first reason R61 gives for a header that selects no operation. -/
def illegalReason (header : Word) : Illegal :=
  if header.extractLsb' 9 23 ≠ 0 then .reservedBits
  else if (selectOp (header &&& 0x000000FF#32)).isSome then .extOutsideBuild
  else .unknownOp

/-- The operands of an operation: `EXT` of the header and the body fields R20 lists for it. -/
def Op.withOperands (op : Op) (ext : Bool) (b : Body) : Instr :=
  match op with
  | .cfgWr => .cfgWr b.value
  | .cfgRd => .cfgRd
  | .buildD => .buildD ext b.id b.data
  | .buildC => .buildC ext b.id b.data
  | .buildFd => .buildFd ext b.id b.data
  | .parseAuto => .parseAuto b.buf
  | .parseC => .parseC b.buf
  | .parseFd => .parseFd b.buf
  | .sigPack => .sigPack b.sig b.raw b.dlc b.pl
  | .sigUnpack => .sigUnpack b.sig b.pl
  | .sigEnc => .sigEnc b.sig b.phys b.dlc b.pl
  | .sigDec => .sigDec b.sig b.pl
  | .msgEnc => .msgEnc b.msg b.values
  | .msgDec => .msgDec b.msg b.pl

/-- Reads a request (R59 to R61): the header first, and the body only where the header is legal (R132). -/
def decode (r : Request) : Except Illegal Instr :=
  match selectOp r.header with
  | some op => .ok (op.withOperands (headerExt r.header) r.body)
  | none => .error (illegalReason r.header)

/-! ## The encoder -/

/-- The row's pattern in R60. -/
def Op.pattern : Op → Word
  | .cfgWr => 0x00000001#32
  | .cfgRd => 0x00000002#32
  | .buildD => 0x00000010#32
  | .buildC => 0x00000011#32
  | .buildFd => 0x00000012#32
  | .parseAuto => 0x00000018#32
  | .parseC => 0x00000019#32
  | .parseFd => 0x0000001A#32
  | .sigPack => 0x00000020#32
  | .sigUnpack => 0x00000021#32
  | .sigEnc => 0x00000022#32
  | .sigDec => 0x00000023#32
  | .msgEnc => 0x00000030#32
  | .msgDec => 0x00000031#32

/-- A header (R59, R64): `OP`, plus `0x100` when `ext = 1`. -/
def headerWord (op : Op) (ext : Bool) : Word := op.pattern ||| (if ext then 0x00000100#32 else 0#32)

/-- A well-formed descriptor that says nothing: one unsigned bit at position 0, unscaled. -/
def DbcSignal.blank : DbcSignal :=
  { name := "", startBit := 0, length := 1, endianness := .little, sign := .unsigned, factor := 1, offset := 0 }

/-- A body with every number zero and every sequence of zeros, as long as the operations need to complete on it: what a
request's other fields hold in `encode`, and what stands behind a bare header word in `decodeTableWord` (log entry 4).
The spec's body has no bits (D11), so no operand word of zeros can stand for it. -/
def Body.blank : Body :=
  { id := 0, data := [], buf := zeros 16, sig := DbcSignal.blank, raw := 0, phys := 0, dlc := 1, pl := zeros 1,
    msg := { id := 0, name := "", dlc := 1, signals := [] }, values := [], value := 0 }

/-- The request that asks for `i` (R59, R60, R20); body fields the operation does not read are blank. -/
def encode : Instr → Request
  | .cfgWr value => ⟨headerWord .cfgWr false, { Body.blank with value := value }⟩
  | .cfgRd => ⟨headerWord .cfgRd false, Body.blank⟩
  | .buildD ext id data => ⟨headerWord .buildD ext, { Body.blank with id := id, data := data }⟩
  | .buildC ext id data => ⟨headerWord .buildC ext, { Body.blank with id := id, data := data }⟩
  | .buildFd ext id data => ⟨headerWord .buildFd ext, { Body.blank with id := id, data := data }⟩
  | .parseAuto buf => ⟨headerWord .parseAuto false, { Body.blank with buf := buf }⟩
  | .parseC buf => ⟨headerWord .parseC false, { Body.blank with buf := buf }⟩
  | .parseFd buf => ⟨headerWord .parseFd false, { Body.blank with buf := buf }⟩
  | .sigPack sig raw dlc pl =>
    ⟨headerWord .sigPack false, { Body.blank with sig := sig, raw := raw, dlc := dlc, pl := pl }⟩
  | .sigUnpack sig pl => ⟨headerWord .sigUnpack false, { Body.blank with sig := sig, pl := pl }⟩
  | .sigEnc sig phys dlc pl =>
    ⟨headerWord .sigEnc false, { Body.blank with sig := sig, phys := phys, dlc := dlc, pl := pl }⟩
  | .sigDec sig pl => ⟨headerWord .sigDec false, { Body.blank with sig := sig, pl := pl }⟩
  | .msgEnc msg values => ⟨headerWord .msgEnc false, { Body.blank with msg := msg, values := values }⟩
  | .msgDec msg pl => ⟨headerWord .msgDec false, { Body.blank with msg := msg, pl := pl }⟩

/-- The request whose header is the table word `w` (bit 0 the least significant, `nbits` of them) over the blank
body. -/
def tableRequest (nbits w : Nat) : Request := ⟨BitVec.ofNat 32 (w % 2 ^ nbits), Body.blank⟩

/-- The instruction the decoder reads from a table word. -/
def decodeTableWord (nbits w : Nat) : Option Instr :=
  match decode (tableRequest nbits w) with
  | .ok i => some i
  | .error _ => none

end Sys2Proof
end

