-- ==== Sys2Proof/Machine/State.lean ====
section
/-! DEFINITION. The state of the codec block and of its two ports (10_state.md R13 to R16, R20, R21, R27), and how a step
can stop. -/

namespace Sys2Proof.Machine

/-- The error kinds a response can carry (R180). None of them stops the block: after any of them it accepts the next
request (R190). -/
inductive ErrorKind where
  /-- Code 1 (R181): BUILD, too many data bytes. -/
  | invalidLength
  /-- Code 2 (R182), `ParseError` in DOC00 §7: PARSE, fewer than 8 bytes. -/
  | incomplete
  /-- Code 3 (R183): the raw value fails R92. -/
  | signalOutOfRange
  /-- Code 4 (R184): the signal fails R93. -/
  | signalExceedsMessage
  /-- Code 5 (R185): a position outside the payload presented. -/
  | bitPositionOutOfBounds
  /-- Code 6 (R186): the header selects no operation. -/
  | illegalRequest
  deriving DecidableEq, Repr

/-- A CAN frame after parse (R15). `Frame` has no DLC field: the length of `data` is the only length kept. -/
structure Frame where
  id : Nat
  extended : Bool
  data : Bytes
  fd : Bool
  deriving DecidableEq, Repr

/-- The result a response carries when its status is `OK` (R21). -/
inductive Result where
  /-- CFG.WR: no result. -/
  | none
  /-- BUILD: `bytes`. -/
  | bytes (b : Bytes)
  /-- PARSE: `frame`. -/
  | frame (f : Frame)
  /-- SIG.PACK, SIG.ENC: `pl`. -/
  | pl (b : Bytes)
  /-- SIG.UNPACK: `raw`. -/
  | raw (r : Int)
  /-- SIG.DEC: `phys`. -/
  | phys (q : Rat)
  /-- MSG.ENC: `data`. -/
  | data (b : Bytes)
  /-- MSG.DEC: `signals`. -/
  | signals (m : ValueMap)
  /-- CFG.RD: `value`. -/
  | value (v : Word)
  deriving DecidableEq, Repr

/-- A response (R21): the status `OK` with a result, or an error kind and nothing else (R189). -/
inductive Response where
  | ok (r : Result)
  | error (e : ErrorKind)
  deriving DecidableEq, Repr

/-- The block and its ports. `cfg` is the only state that persists in the block (R13, R26); `requests` and `response`
are the MODEL's own fields, the two ports of a transaction (R20, R21). Nothing but the step's fetch reads `requests`,
and nothing reads `response` (log entry 2). -/
structure State where
  /-- `CFG` (R14): bit 0 `ENDIAN`, bit 1 `FD`, bits 31:2 reserved. -/
  cfg : Word
  /-- The requests the host will issue, in the order it issues them (R23, R41), each once the response to the one
  before has been returned (R215). -/
  requests : List Request
  /-- The response to the latest request (R21), if one has been served. -/
  response : Option Response
  deriving DecidableEq, Repr

/-- How the block stops with a fault: in no way. Every error the spec names is a response, after which the block goes on
(R189, R190), and it has no memory to access amiss (R30). Raised by nothing; safe. -/
inductive Fault where
  deriving DecidableEq, Repr

/-- Requests to which the spec gives no response. -/
inductive Refusal where
  /-- An instruction of the table that has no meaning yet, by its mnemonic. Raised by an arm of `exec` only; safe. -/
  | notModelled (mnemonic : String)
  /-- A descriptor that is not well formed: "refused: this spec gives it no response, and a model must not compute one"
  (R29, D24, U12). Raised by the SIG and MSG meanings; safe. -/
  | illFormedDescriptor
  /-- Operands no request can carry: longer than R7 and R20 allow, or a value map with a key twice (R19). Raised by the
  step; safe. -/
  | notPresentable
  deriving DecidableEq, Repr

/-- The machine right after reset (R27, R210, R211): `CFG = 0`, no request in progress and none remembered. -/
def State.reset : State := { cfg := 0#32, requests := [], response := none }

end Sys2Proof.Machine
end

