-- ==== Sys2Proof/Machine/Flags.lean ====
section
/-! DEFINITION. The block has no flag, condition code or sticky error bit (10_state.md R24). What stands in their place:
the status code of a response (60_exceptions.md R180, 30_encoding.md R63) and the fields of `CFG` (10_state.md R14). -/

namespace Sys2Proof.Machine

/-- The number of an error kind (R180). -/
def ErrorKind.code : ErrorKind → BitVec 8
  | .invalidLength => 1
  | .incomplete => 2
  | .signalOutOfRange => 3
  | .signalExceedsMessage => 4
  | .bitPositionOutOfBounds => 5
  | .illegalRequest => 6

/-- The 8-bit status of a response (R63, R180): 0 is `OK`. -/
def Response.status : Response → BitVec 8
  | .ok _ => 0
  | .error e => e.code

/-- The order of the identifier word's bytes (R32, R33). -/
inductive ByteOrder where
  | big
  | little
  deriving DecidableEq, Repr

/-- `CFG.ENDIAN`, bit 0 (R14): 0 big-endian, 1 little-endian. -/
def cfgOrder (cfg : Word) : ByteOrder := if cfg.getLsbD 0 then .little else .big

/-- `CFG.FD`, bit 1 (R14): whether the default form is FD. -/
def cfgFd (cfg : Word) : Bool := cfg.getLsbD 1

/-- The bits of `CFG` that are fields; the others are reserved (R14). -/
def cfgFields : Word := 0x00000003#32

/-- What CFG.RD answers (R131): `zext_32(CFG.FD << 1 | CFG.ENDIAN)`, so the reserved bits read as zero (R14). -/
def cfgRead (cfg : Word) : Word := cfg &&& cfgFields

/-- What `CFG` holds after a write of `value` (R130): the two fields from its bits 0 and 1; bits 31:2 of `value` are
ignored and the reserved bits of `CFG` are left as they are (R14). -/
def cfgWrite (cfg value : Word) : Word := (cfg &&& ~~~cfgFields) ||| (value &&& cfgFields)

end Sys2Proof.Machine
end

