-- ==== Sys2Proof/Machine/Ops.lean ====
section
/-! DEFINITION. The named operations: byte and bit access to the two operand spaces (20_memory.md R30 to R39), the value
map (R19), taking the next request (R13), and returning a response, with or without an error (60_exceptions.md R180,
R189). -/

namespace Sys2Proof.Machine

/-! ## Byte sequences -/

/-- `MemRead(S+a, n)` of R11: the `n` bytes at offsets `a` to `a + n - 1`. Every use has `a + n ≤ len(S)`. -/
def memRead (b : Bytes) (a n : Nat) : Bytes := (b.drop a).take n

/-- `MemWrite(S+a, n, v)` of R11, `n = len(v)`: those bytes replaced by `v`, the others as they were. -/
def memWrite (b : Bytes) (a : Nat) (v : Bytes) : Bytes := b.take a ++ v ++ b.drop (a + v.length)

/-- `bytes_be(w)` of R32: most significant byte first. -/
def bytesBe (w : Word) : Bytes :=
  [w.extractLsb' 24 8, w.extractLsb' 16 8, w.extractLsb' 8 8, w.extractLsb' 0 8]

/-- `bytes_le(w)` of R33: least significant byte first. -/
def bytesLe (w : Word) : Bytes :=
  [w.extractLsb' 0 8, w.extractLsb' 8 8, w.extractLsb' 16 8, w.extractLsb' 24 8]

/-- `word_be(b)` of R32 on the first four bytes. -/
def wordBe (b : Bytes) : Word := b.getD 0 0 ++ b.getD 1 0 ++ b.getD 2 0 ++ b.getD 3 0

/-- `word_le(b)` of R33 on the first four bytes. -/
def wordLe (b : Bytes) : Word := b.getD 3 0 ++ b.getD 2 0 ++ b.getD 1 0 ++ b.getD 0 0

/-- The identifier word's bytes in the configured order (R34). -/
def bytesOf (order : ByteOrder) (w : Word) : Bytes :=
  match order with
  | .big => bytesBe w
  | .little => bytesLe w

/-- The identifier word from its bytes in the configured order (R34). -/
def wordOf (order : ByteOrder) (b : Bytes) : Word :=
  match order with
  | .big => wordBe b
  | .little => wordLe b

/-! ## Bits of a payload -/

/-- `BitRead(PL, p)` of R37: bit `p % 8` of byte `p / 8`. Every use has `p < 8·len(PL)`. -/
def bitRead (pl : Bytes) (p : Nat) : Bool := (pl.getD (p / 8) 0).getLsbD (p % 8)

/-- A byte with bit `k` set or cleared and its other bits as they were (R38). -/
def putBit (byte : Byte) (k : Nat) (b : Bool) : Byte :=
  if b then byte ||| (1#8 <<< k) else byte &&& ~~~(1#8 <<< k)

/-- `BitWrite(PL, p, b)` of R38: bit `p % 8` of byte `p / 8` becomes `b`, and nothing else changes. Every use has
`p < 8·len(PL)`. -/
def bitWrite (pl : Bytes) (p : Nat) (b : Bool) : Bytes :=
  pl.modify (p / 8) fun byte => putBit byte (p % 8) b

/-! ## Value maps -/

/-- `values[name]`, absent outside `dom(values)` (R19, R120). -/
def valueGet : ValueMap → Name → Option Rat
  | [], _ => none
  | (k, v) :: rest, name => if k = name then some v else valueGet rest name

/-- `out[name] <- v` (R122): the entry of that name replaced, or a new one at the end. -/
def valueSet : ValueMap → Name → Rat → ValueMap
  | [], name, v => [(name, v)]
  | (k, u) :: rest, name, v => if k = name then (k, v) :: rest else (k, u) :: valueSet rest name v

/-! ## Requests and responses -/

/-- Takes the next request off the request port (R13, R23); none when the host has issued none. -/
def fetch (s : State) : Option (Request × State) :=
  match s.requests with
  | [] => none
  | r :: rest => some (r, { s with requests := rest })

/-- Returns status `OK` with a result (R21). `CFG` is as it was. -/
def respond (r : Result) (s : State) : Host.Outcome State Fault Refusal :=
  .next { s with response := some (.ok r) }

/-- `raise E` (R11): TAKING AN EXCEPTION, as the block has it (R189). The response carries the code and no result;
`CFG` is left exactly as it was; nothing is saved, no mode changes and control goes nowhere. There is no return from
it: the block then accepts the next request in the ordinary way (R190). -/
def raise (e : ErrorKind) (s : State) : Host.Outcome State Fault Refusal :=
  .next { s with response := some (.error e) }

/-- Ends an operation whose function answers a result or raises (R180, R189). -/
def deliver (r : Except ErrorKind Result) (s : State) : Host.Outcome State Fault Refusal :=
  match r with
  | .ok v => respond v s
  | .error e => raise e s

/-- Refuses a request whose descriptor is not well formed (R29), and otherwise goes on. -/
def withDescriptor (ok : Bool) (k : State → Host.Outcome State Fault Refusal) (s : State) :
    Host.Outcome State Fault Refusal :=
  if ok then k s else .refused .illFormedDescriptor

end Sys2Proof.Machine
end

