-- ==== Sys2Proof/Machine/Control.lean ====
section
/-! DEFINITION. The control operations (43_control_ops.md R130, R131): CFG.WR, CFG.RD. -/

namespace Sys2Proof.Machine

/-- `CFG.WR` (R130): set the session defaults; the status is `OK` and there is no result (R21). -/
def execCfgWr (value : Word) (s : State) : Host.Outcome State Fault Refusal :=
  respond .none { s with cfg := cfgWrite s.cfg value }

/-- `CFG.RD` (R131): read the session defaults. -/
def execCfgRd (s : State) : Host.Outcome State Fault Refusal :=
  respond (.value (cfgRead s.cfg)) s

end Sys2Proof.Machine
end

