-- ==== Sys2Proof/Machine/FrameCodec.lean ====
section
/-! DEFINITION. The frame codec (40_frame_codec.md R70 to R77): BUILD.D, BUILD.C, BUILD.FD, PARSE.AUTO, PARSE.C,
PARSE.FD. -/

namespace Sys2Proof.Machine

/-- The identifier word BUILD writes (R52, R62, R70): the low 29 bits of `id`, `EFF` in bit 31, bits 30:29 zero. -/
def identifierWord (id : Word) (extended : Bool) : Word :=
  (id &&& Config.idMask) ||| (if extended then Config.effFlag else 0#32)

/-- `build` of R70. The length check comes first and is the only check. -/
def build (id : Word) (data : Bytes) (extended fd : Bool) (order : ByteOrder) : Except ErrorKind Bytes :=
  if (!fd && Config.classicMaxData < data.length) || (fd && Config.fdMaxData < data.length) then
    .error .invalidLength
  else
    let wb := zeros (if fd then Config.fdFrameSize else Config.classicFrameSize)
    let wb := memWrite wb 0 (bytesOf order (identifierWord id extended))
    let wb := memWrite wb 4 [BitVec.ofNat 8 data.length]
    .ok (memWrite wb Config.headerSize data)

/-- `fdsel` of R74: which form PARSE takes. -/
inductive FormChoice where
  | auto
  | classic
  | fd
  deriving DecidableEq, Repr

/-- Whether PARSE reads an FD frame (R56, R74): as the operation says, or by the length of the buffer alone. -/
def usesFd (choice : FormChoice) (len : Nat) : Bool :=
  match choice with
  | .auto => Config.fdAutodetectSize ≤ len
  | .classic => false
  | .fd => true

/-- The DLC PARSE takes from byte 4 (R53, R62): the full byte for FD, its low 4 bits for classic. -/
def parsedDlc (fd : Bool) (byte4 : Byte) : Nat :=
  if fd then byte4.toNat else (byte4 &&& Config.classicDlcMask).toNat

/-- `parse` of R74. `Incomplete` depends on the length alone; a payload the buffer cannot hold is the empty one, not a
truncated one (conflict C9). -/
def parse (buf : Bytes) (choice : FormChoice) (order : ByteOrder) : Except ErrorKind Frame :=
  if buf.length < Config.minFrameSize then .error .incomplete
  else
    let fd := usesFd choice buf.length
    let word := wordOf order (memRead buf 0 4)
    let dlc := parsedDlc fd ((memRead buf 4 1).getD 0 0)
    .ok { id := (word &&& Config.idMask).toNat
          extended := (word &&& Config.effFlag) != 0#32
          data := if Config.headerSize + dlc ≤ buf.length then memRead buf Config.headerSize dlc else []
          fd := fd }

/-- BUILD's function with the configured byte order (R34, D16), its result as a response carries it (R21). -/
def buildResult (fd ext : Bool) (id : Word) (data : Bytes) (cfg : Word) : Except ErrorKind Result :=
  (build id data ext fd (cfgOrder cfg)).map Result.bytes

/-- PARSE's function with the configured byte order (R34, D16), its result as a response carries it (R21). -/
def parseResult (choice : FormChoice) (buf : Bytes) (cfg : Word) : Except ErrorKind Result :=
  (parse buf choice (cfgOrder cfg)).map Result.frame

/-- `BUILD.D` (R73): the form is the session's default, `CFG.FD`. -/
def execBuildD (ext : Bool) (id : Word) (data : Bytes) (s : State) : Host.Outcome State Fault Refusal :=
  deliver (buildResult (cfgFd s.cfg) ext id data s.cfg) s

/-- `BUILD.C` (R71): a classic frame. -/
def execBuildC (ext : Bool) (id : Word) (data : Bytes) (s : State) : Host.Outcome State Fault Refusal :=
  deliver (buildResult false ext id data s.cfg) s

/-- `BUILD.FD` (R72): an FD frame. -/
def execBuildFd (ext : Bool) (id : Word) (data : Bytes) (s : State) : Host.Outcome State Fault Refusal :=
  deliver (buildResult true ext id data s.cfg) s

/-- `PARSE.AUTO` (R75): the form by the length of the buffer. -/
def execParseAuto (buf : Bytes) (s : State) : Host.Outcome State Fault Refusal :=
  deliver (parseResult .auto buf s.cfg) s

/-- `PARSE.C` (R76): classic whatever the length. -/
def execParseC (buf : Bytes) (s : State) : Host.Outcome State Fault Refusal :=
  deliver (parseResult .classic buf s.cfg) s

/-- `PARSE.FD` (R77): FD whatever the length. -/
def execParseFd (buf : Bytes) (s : State) : Host.Outcome State Fault Refusal :=
  deliver (parseResult .fd buf s.cfg) s

end Sys2Proof.Machine
end

