-- ==== Sys2Proof/Machine/Operands.lean ====
section
/-! DEFINITION. The operand forms of the signal codec (41_dbc_signal_codec.md R90 to R102): where the bits of a signal
stand in a payload, in Intel and in Motorola order, which raw values it takes, two's complement, and scaling. -/

namespace Sys2Proof.Machine

/-! ## Bit addressing -/

/-- `base` of R96: `start_bit` with its position inside the byte mirrored. Used with `start_bit ≥ 0` only (R93, R99). -/
def motorolaBase (sig : DbcSignal) : Int := (sig.startBit / 8) * 8 + (7 - sig.startBit % 8)

/-- `bit_pos(sig, i)` (R95, R96): the absolute payload position of bit `i` of the field, `i = 0` the least significant
(conflict C1). Below 0 where a Motorola signal runs off the front of the payload. -/
def bitPos (sig : DbcSignal) (i : Nat) : Int :=
  match sig.endianness with
  | .little => sig.startBit + i
  | .big => motorolaBase sig - i

/-- The position lies in `[0, 8·n)`: inside a payload of `n` bytes (R8). -/
def insideBytes (n : Nat) (p : Int) : Bool := 0 ≤ p && p < 8 * n

/-- Every position the signal touches (R107) lies inside `n` bytes. -/
def footprintInside (sig : DbcSignal) (n : Nat) : Bool :=
  (List.range sig.length).all fun i => insideBytes n (bitPos sig i)

/-! ## Checks before encode -/

/-- `check_range` of R92 passes. An unsigned signal has no upper check (conflict C3, R111). -/
def rangeOk (sig : DbcSignal) (raw : Int) : Bool :=
  match sig.sign with
  | .unsigned => 0 ≤ raw
  | .signed => -(2 ^ (sig.length - 1)) ≤ raw && raw ≤ 2 ^ (sig.length - 1) - 1

/-- `check_bounds` of R93 passes: `start_bit` not negative, tested first, and the footprint in `[0, 8·dlc)`. -/
def boundsOk (sig : DbcSignal) (dlc : Nat) : Bool :=
  0 ≤ sig.startBit && footprintInside sig dlc

/-! ## Two's complement -/

/-- `to_field` of R94: the bit pattern to store, a natural below `2^length`. -/
def toField (sig : DbcSignal) (raw : Int) : Nat :=
  let shifted := if sig.sign = .signed ∧ raw < 0 then 2 ^ sig.length + raw else raw
  shifted.toNat &&& (2 ^ sig.length - 1)

/-- `from_field` of R101: sign extension from bit `length - 1`. -/
def fromField (sig : DbcSignal) (field : Nat) : Int :=
  if sig.sign = .signed ∧ field.testBit (sig.length - 1) = true then (field : Int) - 2 ^ sig.length else field

/-! ## Scaling -/

/-- `round` of R91: the nearest integer, and at `k + 1/2` the neighbour that `ROUND_TIE` names (D18). -/
def roundNearest (x : Rat) : Int :=
  let k := x.floor
  if x - k < 1 / 2 then k
  else if 1 / 2 < x - k then k + 1
  else if Config.roundTieUp k then k + 1 else k

/-- `scale_to_raw` of R90: `round((phys - offset) / factor)`, exact in ℚ (D17). -/
def scaleToRaw (sig : DbcSignal) (phys : Rat) : Int := roundNearest ((phys - sig.offset) / sig.factor)

/-- `scale_to_phys` of R102: `raw·factor + offset`, exact in ℚ. -/
def scaleToPhys (sig : DbcSignal) (raw : Int) : Rat := raw * sig.factor + sig.offset

end Sys2Proof.Machine
end

