-- ==== Sys2Proof/Machine/SignalCodec.lean ====
section
/-! DEFINITION. The DBC signal codec (41_dbc_signal_codec.md R97 to R106): SIG.PACK, SIG.UNPACK, SIG.ENC, SIG.DEC. -/

namespace Sys2Proof.Machine

/-- The second loop of `write_bits` (R97): bits `0` to `n - 1` of `field` written at their positions, in rising order. -/
def putBits (sig : DbcSignal) (field n : Nat) (pl : Bytes) : Bytes :=
  (List.range n).foldl (fun acc i => bitWrite acc (bitPos sig i).toNat (field.testBit i)) pl

/-- `write_bits` of R97: every position is tested before any bit is written. -/
def writeBits (sig : DbcSignal) (field : Nat) (pl : Bytes) : Except ErrorKind Bytes :=
  if footprintInside sig pl.length then .ok (putBits sig field sig.length pl)
  else .error .bitPositionOutOfBounds

/-- The gathering loop of `read_bits` (R99): bits `0` to `n - 1` of the field, bit `i` shifted to weight `2^i`. -/
def getBits (sig : DbcSignal) (n : Nat) (pl : Bytes) : Nat :=
  (List.range n).foldl (fun acc i => acc ||| (bitRead pl (bitPos sig i).toNat).toNat <<< i) 0

/-- `read_bits` of R99: a missing bit is an error, never zero (conflict C2). -/
def readBits (sig : DbcSignal) (pl : Bytes) : Except ErrorKind Nat :=
  if sig.startBit < 0 then .error .bitPositionOutOfBounds
  else if footprintInside sig pl.length then .ok (getBits sig sig.length pl)
  else .error .bitPositionOutOfBounds

/-- `pack_raw` of R98: range, then bounds, then two's complement, then writing (D20). -/
def packRaw (sig : DbcSignal) (raw : Int) (dlc : Nat) (pl : Bytes) : Except ErrorKind Bytes :=
  if !rangeOk sig raw then .error .signalOutOfRange
  else if !boundsOk sig dlc then .error .signalExceedsMessage
  else writeBits sig (toField sig raw) pl

/-- `unpack_raw` of R100. -/
def unpackRaw (sig : DbcSignal) (pl : Bytes) : Except ErrorKind Int :=
  (readBits sig pl).map (fromField sig)

/-- `SIG.PACK` (R103): an integer into a payload as one signal. -/
def execSigPack (sig : DbcSignal) (raw : Int) (dlc : Nat) (pl : Bytes) (s : State) :
    Host.Outcome State Fault Refusal :=
  withDescriptor sig.wellFormed (deliver ((packRaw sig raw dlc pl).map Result.pl)) s

/-- `SIG.UNPACK` (R104): one signal from a payload as an integer. -/
def execSigUnpack (sig : DbcSignal) (pl : Bytes) (s : State) : Host.Outcome State Fault Refusal :=
  withDescriptor sig.wellFormed (deliver ((unpackRaw sig pl).map Result.raw)) s

/-- `SIG.ENC` (R105): scale a physical value and write it. -/
def execSigEnc (sig : DbcSignal) (phys : Rat) (dlc : Nat) (pl : Bytes) (s : State) :
    Host.Outcome State Fault Refusal :=
  withDescriptor sig.wellFormed (deliver ((packRaw sig (scaleToRaw sig phys) dlc pl).map Result.pl)) s

/-- `SIG.DEC` (R106): read one signal and scale it. -/
def execSigDec (sig : DbcSignal) (pl : Bytes) (s : State) : Host.Outcome State Fault Refusal :=
  withDescriptor sig.wellFormed (deliver ((unpackRaw sig pl).map fun raw => Result.phys (scaleToPhys sig raw))) s

end Sys2Proof.Machine
end

