-- ==== Sys2Proof/Machine/MessageCodec.lean ====
section
/-! DEFINITION. The DBC message codec (42_dbc_message_codec.md R120 to R125): MSG.ENC, MSG.DEC. -/

namespace Sys2Proof.Machine

/-- The loop of `msg_encode` (R120) over the signals in list order: a signal with no value is skipped, the first that
fails ends the operation (D27), and a later signal overwrites an earlier one (R125). -/
def encodeSignals (dlc : Nat) (values : ValueMap) : List DbcSignal → Bytes → Except ErrorKind Bytes
  | [], pl => .ok pl
  | sig :: rest, pl =>
    match valueGet values sig.name with
    | none => encodeSignals dlc values rest pl
    | some phys =>
      match packRaw sig (scaleToRaw sig phys) dlc pl with
      | .error e => .error e
      | .ok pl' => encodeSignals dlc values rest pl'

/-- `msg_encode` of R120. -/
def msgEncode (msg : DbcMessage) (values : ValueMap) : Except ErrorKind Bytes :=
  encodeSignals msg.dlc values msg.signals (zeros msg.dlc)

/-- The loop of `msg_decode` (R122) over the signals in list order: the first that fails ends the operation (D27), and a
later signal of the same name replaces the entry (N16). -/
def decodeSignals (pl : Bytes) : List DbcSignal → ValueMap → Except ErrorKind ValueMap
  | [], out => .ok out
  | sig :: rest, out =>
    match unpackRaw sig pl with
    | .error e => .error e
    | .ok raw => decodeSignals pl rest (valueSet out sig.name (scaleToPhys sig raw))

/-- `msg_decode` of R122: `msg.dlc` is not read (D23). -/
def msgDecode (msg : DbcMessage) (pl : Bytes) : Except ErrorKind ValueMap :=
  decodeSignals pl msg.signals []

/-- `MSG.ENC` (R121): encode one message. -/
def execMsgEnc (msg : DbcMessage) (values : ValueMap) (s : State) : Host.Outcome State Fault Refusal :=
  withDescriptor msg.wellFormed (deliver ((msgEncode msg values).map Result.data)) s

/-- `MSG.DEC` (R123): decode one message. -/
def execMsgDec (msg : DbcMessage) (pl : Bytes) (s : State) : Host.Outcome State Fault Refusal :=
  withDescriptor msg.wellFormed (deliver ((msgDecode msg pl).map Result.signals)) s

end Sys2Proof.Machine
end

