-- ==== Sys2Proof/Machine/Dispatch.lean ====
section
/-! DEFINITION. Which meaning each operation of the table has (30_encoding.md R60). -/

namespace Sys2Proof.Machine

/-- The whole operation on a request already accepted (R13): the next `CFG` and the response. -/
def exec (i : Instr) (s : State) : Host.Outcome State Fault Refusal :=
  match i with
  | .cfgWr value => Sys2Proof.Machine.execCfgWr value s
  | .cfgRd => Sys2Proof.Machine.execCfgRd s
  | .buildD ext id data => Sys2Proof.Machine.execBuildD ext id data s
  | .buildC ext id data => Sys2Proof.Machine.execBuildC ext id data s
  | .buildFd ext id data => Sys2Proof.Machine.execBuildFd ext id data s
  | .parseAuto buf => Sys2Proof.Machine.execParseAuto buf s
  | .parseC buf => Sys2Proof.Machine.execParseC buf s
  | .parseFd buf => Sys2Proof.Machine.execParseFd buf s
  | .sigPack sig raw dlc pl => Sys2Proof.Machine.execSigPack sig raw dlc pl s
  | .sigUnpack sig pl => Sys2Proof.Machine.execSigUnpack sig pl s
  | .sigEnc sig phys dlc pl => Sys2Proof.Machine.execSigEnc sig phys dlc pl s
  | .sigDec sig pl => Sys2Proof.Machine.execSigDec sig pl s
  | .msgEnc msg values => Sys2Proof.Machine.execMsgEnc msg values s
  | .msgDec msg pl => Sys2Proof.Machine.execMsgDec msg pl s

end Sys2Proof.Machine
end

