-- ==== Sys2Proof/Machine/Serve.lean ====
section
/-! DEFINITION. What the block does with the next request, or with none (10_state.md R13; 43_control_ops.md R132). The
step only calls this. -/

namespace Sys2Proof.Machine

/-- Serves one request that has been taken off the port: an illegal header is answered with `IllegalRequest` before
anything else, its body not examined (R132, R188); a legal one is executed, unless it holds operands no request can
carry (R7, R20; log entry 7). -/
def serve (r : Request) (s : State) : Host.Outcome State Fault Refusal :=
  match decode r with
  | .error _ => raise .illegalRequest s
  | .ok i => if i.presentable then exec i s else .refused .notPresentable

/-- Where the host has issued no request nothing happens: the block "acts only when a request arrives" (R192; DEDUCED,
log entry 6). -/
def idle (s : State) : Host.Outcome State Fault Refusal := .next s

end Sys2Proof.Machine
end

