-- ==== Sys2Proof/Machine/Step.lean ====
section
/-! DEFINITION. One step of the block: one request served whole (10_state.md R13). -/

namespace Sys2Proof.Machine

/-- One step (R13, R23): given `CFG` and one request, one response and the next `CFG`. -/
def step (s : State) : Host.Outcome State Fault Refusal :=
  match fetch s with
  | none => idle s
  | some (r, s') => serve r s'

/-- The state whose next request is the table word `w` of `nbits` bits over the blank body: the host issues it before
any request it was going to issue. -/
def State.withFetchWord (s : State) (nbits w : Nat) : State :=
  { s with requests := tableRequest nbits w :: s.requests }

end Sys2Proof.Machine
end

