-- ==== Sys2Proof/Machine/DbcText.lean ====
section
/-! DEFINITION. The text form of descriptors (30_encoding.md R57, R58) and the HOST's line parser for it
(44_host_software.md R156 to R160), which is outside the block (00_scope.md R4). A text is a list of characters.
Texts whose meaning the spec does not state (N26) are refused by name. -/

namespace Sys2Proof.Machine

/-- A character of white space inside a line (DESIGN CHOICE, log entry 8). -/
def isBlankChar (c : Char) : Bool := c == ' ' || c == '\t'

/-- The text without the white space it begins with. -/
def skipBlanks (cs : List Char) : List Char := cs.dropWhile isBlankChar

/-- A line trimmed at both ends (R156). -/
def trimLine (cs : List Char) : List Char := (skipBlanks (skipBlanks cs).reverse).reverse

/-- The lines of a text, whichever newline characters it uses (R156: "newline-agnostic"). -/
def splitLines : List Char → List (List Char)
  | [] => [[]]
  | c :: cs =>
    if c == '\n' || c == '\r' then [] :: splitLines cs
    else match splitLines cs with
      | [] => [[c]]
      | l :: ls => (c :: l) :: ls

/-- The rest of a text after a word it begins with. -/
def afterWord : List Char → List Char → Option (List Char)
  | [], cs => some cs
  | w :: ws, c :: cs => if w == c then afterWord ws cs else none
  | _ :: _, [] => none

/-- The text before the first `stop` and the text after it. -/
def cutAt (stop : Char) : List Char → Option (List Char × List Char)
  | [] => none
  | c :: cs =>
    if c == stop then some ([], cs)
    else match cutAt stop cs with
      | none => none
      | some (tok, rest) => some (c :: tok, rest)

/-- A decimal number: one digit or more and nothing else. -/
def decimalOf (cs : List Char) : Option Nat :=
  if cs.isEmpty || !cs.all Char.isDigit then none
  else some (cs.foldl (fun n c => 10 * n + (c.toNat - '0'.toNat)) 0)

/-- A number as `<factor>` and `<offset>` write it: an optional minus sign, decimal digits, and optionally a point and
more digits. The spec states no syntax (N26); this one covers every text the spec shows (log entry 8). -/
def rationalOf (cs : List Char) : Option Rat :=
  let negative := cs.head? == some '-'
  let body := if negative then cs.tail else cs
  let magnitude : Option Rat :=
    match cutAt '.' body with
    | none => (decimalOf body).map fun n => (n : Rat)
    | some (whole, part) =>
      match decimalOf whole, decimalOf part with
      | some n, some m => some ((n : Rat) + (m : Rat) / (10 : Rat) ^ part.length)
      | _, _ => none
  magnitude.map fun q => if negative then -q else q

/-- What one trimmed line says. -/
inductive DbcLine where
  /-- A `BO_` line (R58, R157). -/
  | message (id : Nat) (name : Name) (dlc : Nat)
  /-- An `SG_` line (R57, R158). -/
  | signal (sig : DbcSignal)
  /-- An empty line, an ignored prefix (R156) or no recognised shape (R159): skipped. -/
  | skipped
  /-- The shape of an `SG_` line with a factor or an offset in a syntax the spec does not state, or a negative start bit
  (N26). -/
  | unstatedNumber
  deriving DecidableEq, Repr

/-- A name: one character or more, none of them blank. DESIGN CHOICE (log entry 8): the spec gives shapes "not a full
grammar" (R156) and does not say which characters a `<name>` may have; here it is any run without a blank, up to the
colon. -/
def nameOf (cs : List Char) : Option Name :=
  if cs.isEmpty || cs.any isBlankChar then none else some (String.ofList cs)

/-- The first word of a text, up to a blank or the end, and what follows it without the blanks between. -/
def firstWord (cs : List Char) : List Char × List Char :=
  (cs.takeWhile fun c => !isBlankChar c, skipBlanks (cs.dropWhile fun c => !isBlankChar c))

/-- A message line after its `BO_ ` (R58, R157): identifier, name, colon, dlc, and the node, which is not retained but
stands in the shape: a line without it is no message line (R159). How much white space parts them is DESIGN CHOICE
(log entry 8), and so is keeping a message whose `dlc` is above 64 (log entry 15). -/
def messageLine (cs : List Char) : DbcLine :=
  let (idTok, rest) := firstWord (skipBlanks cs)
  match cutAt ':' rest with
  | none => .skipped
  | some (nameTok, rest) =>
    let (dlcTok, node) := firstWord (skipBlanks rest)
    match decimalOf idTok, nameOf nameTok, decimalOf dlcTok with
    | some id, some name, some dlc => if node.isEmpty then .skipped else .message id name dlc
    | _, _, _ => .skipped

/-- `<endian_digit>` (R57). -/
def bitOrderOf : Char → Option BitOrder
  | '1' => some .little
  | '0' => some .big
  | _ => none

/-- `<sign_char>` (R57). -/
def signOf : Char → Option Sign
  | '+' => some .unsigned
  | '-' => some .signed
  | _ => none

/-- The scale of a signal line, `(<factor>,<offset>)`; what follows the parenthesis is not retained (R57, conflict
C7). -/
def scaleTokens (cs : List Char) : Option (List Char × List Char) :=
  match skipBlanks cs with
  | '(' :: rest =>
    match cutAt ',' rest with
    | none => none
    | some (factorTok, rest) =>
      match cutAt ')' rest with
      | none => none
      | some (offsetTok, _) => some (factorTok, offsetTok)
  | _ => none

/-- What `<start_bit>` of a signal line holds. -/
inductive StartText where
  | position (n : Nat)
  /-- A minus sign and digits: the spec does not say what it means in a text (N26). -/
  | negative
  /-- No number: the line has no recognised shape (R159). -/
  | noNumber
  deriving DecidableEq, Repr

/-- Reads `<start_bit>` (R57, R158). -/
def startTextOf (cs : List Char) : StartText :=
  match decimalOf cs, cs with
  | some n, _ => .position n
  | none, '-' :: digits => if (decimalOf digits).isSome then .negative else .noNumber
  | none, _ => .noNumber

/-- A signal line after its `SG_ ` (R57, R158); white space before the colon is optional (conflict C7). A line whose
start bit or length is no number matches no recognised shape and is skipped (R159); the spec leaves open only the
syntax of factor and offset and a negative start bit (N26), and a text with another of these is refused (log entry
8). A length outside 1 to 64 and a factor of 0 are kept in the descriptor: DESIGN CHOICE (log entry 15), since the
spec says nothing of them when a text is read (N13). -/
def signalLine (cs : List Char) : DbcLine :=
  match cutAt ':' (skipBlanks cs) with
  | none => .skipped
  | some (nameTok, rest) =>
    match cutAt '|' (skipBlanks rest) with
    | none => .skipped
    | some (startTok, rest) =>
      match cutAt '@' rest with
      | some (lengthTok, e :: g :: rest) =>
        match nameOf (trimLine nameTok), decimalOf lengthTok, bitOrderOf e, signOf g, scaleTokens rest with
        | some name, some length, some order, some sign, some (factorTok, offsetTok) =>
          match startTextOf startTok, rationalOf factorTok, rationalOf offsetTok with
          | .noNumber, _, _ => .skipped
          | .position start, some factor, some offset =>
            .signal { name := name, startBit := start, length := length, endianness := order, sign := sign,
                      factor := factor, offset := offset }
          | _, _, _ => .unstatedNumber
        | _, _, _, _, _ => .skipped
      | _ => .skipped

/-- Reads one line of a DBC text (R156 to R159). -/
def dbcLine (line : List Char) : DbcLine :=
  let cs := trimLine line
  if (afterWord ['B', 'O', '_', 'T', 'X', '_', 'B', 'U', '_'] cs).isSome then .skipped
  else match afterWord ['B', 'O', '_', ' '] cs, afterWord ['S', 'G', '_', ' '] cs with
    | some rest, _ => messageLine rest
    | _, some rest => signalLine rest
    | none, none => .skipped

/-- A catalog (R163): the messages of a DBC, no name twice. -/
abbrev Catalog := List DbcMessage

/-- Registers a message by name; a message of that name registered before is overwritten (R160). -/
def catalogRegister (cat : Catalog) (m : DbcMessage) : Catalog := (cat.filter fun x => x.name != m.name) ++ [m]

/-- Appends a signal to the message that is open (R158): the one registered last. -/
def catalogAppend (cat : Catalog) (sig : DbcSignal) : Option Catalog :=
  match cat.getLast? with
  | none => none
  | some m => some (cat.dropLast ++ [{ m with signals := m.signals ++ [sig] }])

/-- Why a DBC text is refused: the spec does not state what it means. -/
inductive TextRefusal where
  /-- An `SG_` line before any `BO_` line (N26). -/
  | orphanSignal
  /-- A factor or an offset in a syntax the spec does not state, or a negative start bit (N26). -/
  | unstatedNumber
  deriving DecidableEq, Repr

/-- Reads the lines in order into a catalog (R156 to R160). -/
def readLines : List (List Char) → Catalog → Except TextRefusal Catalog
  | [], cat => .ok cat
  | line :: rest, cat =>
    match dbcLine line with
    | .message id name dlc => readLines rest (catalogRegister cat { id := id, name := name, dlc := dlc, signals := [] })
    | .signal sig =>
      match catalogAppend cat sig with
      | none => .error .orphanSignal
      | some cat' => readLines rest cat'
    | .skipped => readLines rest cat
    | .unstatedNumber => .error .unstatedNumber

/-- `Dbc.new(text)` (R163, R172). -/
def readDbc (text : List Char) : Except TextRefusal Catalog := readLines (splitLines text) []

end Sys2Proof.Machine
end

