-- ==== Sys2Proof/Machine/Filter.lean ====
section
/-! DEFINITION. HOST SOFTWARE, outside the block (00_scope.md R4): the identifier filter of the listener
(44_host_software.md R140, R141). Nothing of it is in `State` and the step does not use it (R25). -/

namespace Sys2Proof.Machine

/-- A filter value (R140). `inclusive` has no stated effect (conflict C8). -/
inductive Filter where
  | all
  | exact (id : Nat)
  | range (lo hi : Nat) (inclusive : Bool)
  | set (ids : List Nat)
  /-- Any other variant: accepted (R141, U9). -/
  | other
  deriving DecidableEq, Repr

/-- `matches(id, filter)` of R141, on the 29-bit `id` of the parsed frame; both ends of a range are included. -/
def filterAccepts (id : Nat) : Filter → Bool
  | .all => true
  | .exact v => id == v
  | .range lo hi _ => lo ≤ id && id ≤ hi
  | .set ids => ids.contains id
  | .other => true

end Sys2Proof.Machine
end

