-- ==== Sys2Proof/Machine/Messenger.lean ====
section
/-! DEFINITION. HOST SOFTWARE, outside the block (00_scope.md R4): the library calls as sequences of block operations
and host actions (30_encoding.md R65; 44_host_software.md R148 to R155, R164, R165). What the spec leaves to the
platform (whether the socket opens, what a read gives, whether a callback throws) is an argument. -/

namespace Sys2Proof.Machine

/-- One request issued to the block and its response taken (R13, R23). -/
def callBlock (i : Instr) (s : State) : Except Refusal (Response × State) :=
  match serve (encode i) s with
  | .next s' =>
    match s'.response with
    | some r => .ok (r, s')
    | none => .error .notPresentable
  | .fault f => nomatch f
  | .refused r => .error r

/-- What a library call reports to its caller when it fails (R187, R191). -/
inductive LibraryError where
  /-- An error of the block, propagated. -/
  | block (e : ErrorKind)
  /-- "DBC encode/send referenced a non-existent name" (R187). -/
  | unknownMessage
  /-- The block refuses the request (R29). -/
  | refused (r : Refusal)
  /-- A catalog with two messages of one id (R163, D33, U1), or a DBC decode that fails inside the listener (N22, U16):
  the spec gives no result. -/
  | noStatedResult
  deriving DecidableEq, Repr

/-! ## Catalog entry points -/

/-- The message of a name (R163); names are unique. -/
def catalogByName (cat : Catalog) (name : Name) : Option DbcMessage := cat.find? fun m => m.name == name

/-- The message of an id, plain equality (R165); none when no message has it. -/
def catalogById (cat : Catalog) (id : Nat) : Option DbcMessage := cat.find? fun m => m.id == id

/-- `encode_can(name, values)` (R164): MSG.ENC with the descriptor found; the id and the data. -/
def encodeCan (cat : Catalog) (name : Name) (values : ValueMap) (s : State) :
    Except LibraryError ((Nat × Bytes) × State) :=
  match catalogByName cat name with
  | none => .error .unknownMessage
  | some msg =>
    match callBlock (.msgEnc msg values) s with
    | .ok (.ok (.data b), s') => .ok ((msg.id, b), s')
    | .ok (.ok _, _) => .error .noStatedResult
    | .ok (.error e, _) => .error (.block e)
    | .error r => .error (.refused r)

/-- `decode_can(id, data)` (R165): the name and the signals, or absent when no message has the id. -/
def decodeCan (cat : Catalog) (id : Nat) (data : Bytes) (s : State) :
    Except LibraryError (Option (Name × ValueMap) × State) :=
  if (cat.map DbcMessage.id).Nodup then
    match catalogById cat id with
    | none => .ok (none, s)
    | some msg =>
      match callBlock (.msgDec msg data) s with
      | .ok (.ok (.signals m), s') => .ok (some (msg.name, m), s')
      | .ok (.ok _, _) => .error .noStatedResult
      | .ok (.error e, _) => .error (.block e)
      | .error r => .error (.refused r)
  else .error .noStatedResult

/-! ## Sending -/

/-- What the host does beside its requests to the block, in order; the content of a log entry is not specified
(R173). -/
inductive HostAction where
  | socketOpened
  | socketClosed
  | wrote (bytes : Bytes)
  | logged
  | delivered (frame : Frame) (decoded : Option (Name × ValueMap))
  deriving DecidableEq, Repr

/-- The BUILD operation `send_raw` issues (R65): by the caller's `fd`, or the session's default when it is omitted; with
`EXT` the caller's `extended`, or `false` when it is omitted (R6, R59, R133). -/
def sendOp (id : Word) (data : Bytes) (extended fd : Option Bool) : Instr :=
  let ext := extended.getD Config.defaultExtended
  match fd with
  | none => .buildD ext id data
  | some false => .buildC ext id data
  | some true => .buildFd ext id data

/-- `send_raw` (R149): a scoped socket, BUILD, one write of the whole frame (R144), and the socket released on every
exit (R171). A socket or write failure is logged and swallowed; the length error propagates, the socket released. -/
def sendRaw (opens writes : Bool) (id : Word) (data : Bytes) (extended fd : Option Bool) (s : State) :
    Except LibraryError Unit × List HostAction × State :=
  if !opens then (.ok (), [.logged], s)
  else
    match callBlock (sendOp id data extended fd) s with
    | .ok (.ok (.bytes b), s') =>
      if writes then (.ok (), [.socketOpened, .wrote b, .socketClosed], s')
      else (.ok (), [.socketOpened, .logged, .socketClosed], s')
    | .ok (.ok _, s') => (.error .noStatedResult, [.socketOpened, .socketClosed], s')
    | .ok (.error e, s') => (.error (.block e), [.socketOpened, .socketClosed], s')
    | .error r => (.error (.refused r), [.socketOpened, .socketClosed], s)

/-- `send_with_dbc` (R65, R150): `encode_can`, then `send_raw` with the message's id, which BUILD masks like any other
(N25). -/
def sendWithDbc (opens writes : Bool) (cat : Catalog) (name : Name) (values : ValueMap)
    (extended fd : Option Bool) (s : State) : Except LibraryError Unit × List HostAction × State :=
  match encodeCan cat name values s with
  | .error e => (.error e, [], s)
  | .ok ((id, data), s') => sendRaw opens writes (BitVec.ofNat 32 id) data extended fd s'

/-! ## Listening -/

/-- What `read_frame` gives (R145): bytes, or nothing on a timeout, or nothing with a log entry on a failure. -/
inductive ReadResult where
  | timeout
  | failed
  | bytes (b : Bytes)
  deriving DecidableEq, Repr

/-- What the platform does in one turn of the loop: what the read gives, whether another thread calls `stop_listening`
before the turn ends (R152), whether the callback throws (R151). -/
structure Turn where
  read : ReadResult
  stop : Bool
  throws : Bool
  deriving DecidableEq, Repr

/-- The arguments of `listen` (R151), a callback given. Which PARSE variant the loop issues is not stated (N21, U15):
`form` is an argument. -/
structure ListenOptions where
  filter : Filter
  form : FormChoice
  dbc : Option Catalog
  deriving DecidableEq, Repr

/-- The PARSE operation of a form (R56, R60). -/
def parseOp (form : FormChoice) (buf : Bytes) : Instr :=
  match form with
  | .auto => .parseAuto buf
  | .classic => .parseC buf
  | .fd => .parseFd buf

/-- Step 4 of the loop (R151): the decoded sub-record, where a catalog is given and a message has the id. A decode that
fails here has no stated result (N22, U16). -/
def attachDecoded (dbc : Option Catalog) (f : Frame) (s : State) :
    Except LibraryError (Option (Name × ValueMap) × State) :=
  match dbc with
  | none => .ok (none, s)
  | some cat =>
    match decodeCan cat f.id f.data s with
    | .ok r => .ok r
    | .error _ => .error .noStatedResult

/-- Steps 1 to 5 of the loop (R151): a null read, a frame that does not parse and a filtered frame are each passed over;
a callback that throws is logged and the loop goes on. -/
def listenTurn (o : ListenOptions) (t : Turn) (s : State) : Except LibraryError (List HostAction × State) :=
  match t.read with
  | .timeout => .ok ([], s)
  | .failed => .ok ([.logged], s)
  | .bytes b =>
    match callBlock (parseOp o.form b) s with
    | .ok (.ok (.frame f), s') =>
      if filterAccepts f.id o.filter then
        match attachDecoded o.dbc f s' with
        | .ok (decoded, s'') => .ok (.delivered f decoded :: (if t.throws then [.logged] else []), s'')
        | .error e => .error e
      else .ok ([], s')
    | .ok (.ok _, _) => .error .noStatedResult
    | .ok (.error _, s') => .ok ([.logged], s')
    | .error r => .error (.refused r)

/-- The loop of `listen` (R151 to R153): it goes on while `listening`, and sees a stop at the next iteration boundary
(R152, R169). It answers whether it is still listening when the turns given are over. -/
def listenLoop (o : ListenOptions) : List Turn → State → Except LibraryError (Bool × List HostAction × State)
  | [], s => .ok (true, [], s)
  | t :: rest, s =>
    match listenTurn o t s with
    | .error e => .error e
    | .ok (actions, s') =>
      if t.stop then .ok (false, actions, s')
      else match listenLoop o rest s' with
        | .error e => .error e
        | .ok (on, more, s'') => .ok (on, actions ++ more, s'')

/-- `listen` (R151, R154, R171): without a callback it logs and returns, no socket opened; a socket that does not open is
the only fatal condition; the socket is closed once when the loop ends. Called again it listens again (R155): nothing
of an earlier call is kept. -/
def listen (callback opens : Bool) (o : ListenOptions) (turns : List Turn) (s : State) :
    Except LibraryError (Bool × List HostAction × State) :=
  if !callback || !opens then .ok (false, [.logged], s)
  else match listenLoop o turns s with
    | .error e => .error e
    | .ok (true, actions, s') => .ok (true, .socketOpened :: actions, s')
    | .ok (false, actions, s') => .ok (false, .socketOpened :: actions ++ [.socketClosed], s')

end Sys2Proof.Machine
end

