-- ==== Sys2Proof/Safety.lean ====
section
/-! DEFINITION. What a state of the block may hold between two steps, and what a safe step is, in the terms the
statements use. -/

namespace Sys2Proof.Machine

/-- A wire buffer as BUILD returns it (R50, R51, R70): 16 bytes with at most 8 in the DLC byte, or 72 with at most 64,
bytes 5 to 7 zero, and every payload byte from the DLC on zero. -/
abbrev builtBuffer (b : Bytes) : Prop :=
  ((b.length = 16 ∧ (b.getD 4 0).toNat ≤ 8) ∨ (b.length = 72 ∧ (b.getD 4 0).toNat ≤ 64)) ∧
  b.getD 5 0 = 0 ∧ b.getD 6 0 = 0 ∧ b.getD 7 0 = 0 ∧ ∀ x ∈ b.drop (8 + (b.getD 4 0).toNat), x = 0

/-- A frame as PARSE returns it (R15, R28): a 29-bit identifier, at most 64 data bytes for FD and at most 15 for
classic (conflict C4). -/
abbrev parsedFrame (f : Frame) : Prop := f.id < 2 ^ 29 ∧ f.data.length ≤ (if f.fd then 64 else 15)

/-- A result in the range its operation has (R14, R19, R21, R28). -/
abbrev Result.inRange : Result → Prop
  | .none => True
  | .bytes b => builtBuffer b
  | .frame f => parsedFrame f
  | .pl b => b.length ≤ Config.payloadMax
  | .raw r => -(2 ^ 63) ≤ r ∧ r < 2 ^ 64
  | .phys _ => True
  | .data b => b.length ≤ Config.payloadMax
  | .signals m => (m.map Prod.fst).Nodup
  | .value v => v.toNat < 4

/-- A response in range: an error carries a code alone (R189). -/
abbrev Response.inRange : Response → Prop
  | .ok r => r.inRange
  | .error _ => True

/-- The invariant of the block: the reserved bits of `CFG` are zero (R14) and the response last returned, if any, is one
the spec's operations return (R21, R28). Nothing is said of the requests: they are the host's. -/
abbrev State.Inv (s : State) : Prop :=
  s.cfg.extractLsb' 2 30 = 0#30 ∧ ∀ r, s.response = some r → r.inRange

/-- A safe outcome: the block goes on. -/
abbrev goesOn : Host.Outcome State Fault Refusal → Prop
  | .next _ => True
  | .fault _ => False
  | .refused _ => False

/-! ## What the statements speak of: the spec's layouts and conditions, written from its tables -/

/-- The four bytes of an identifier word of value `w` (R32, R33): base-256 digits, most significant first when
big-endian, the same reversed when little-endian. -/
def idBytes (little : Bool) (w : Nat) : Bytes :=
  let bigEndian := [BitVec.ofNat 8 (w / 2 ^ 24), BitVec.ofNat 8 (w / 2 ^ 16), BitVec.ofNat 8 (w / 2 ^ 8), BitVec.ofNat 8 w]
  if little then bigEndian.reverse else bigEndian

/-- The identifier word's value in a buffer's first four bytes (R32, R33). -/
def idValue (little : Bool) (buf : Bytes) : Nat :=
  let b (k : Nat) : Nat := (buf.getD k 0).toNat
  if little then b 3 * 2 ^ 24 + b 2 * 2 ^ 16 + b 1 * 2 ^ 8 + b 0
  else b 0 * 2 ^ 24 + b 1 * 2 ^ 16 + b 2 * 2 ^ 8 + b 3

/-- The value of the identifier word BUILD writes (R52): `id` in the low 29 bits, `EFF` in bit 31. -/
def builtWord (ext : Bool) (id : Nat) : Nat := id % 2 ^ 29 + (if ext then 2 ^ 31 else 0)

/-- The frame of R50 (`field` 8) and R51 (`field` 64): identifier word, DLC, three reserved zeros, the data, zero
padding. -/
def wireFrame (little ext : Bool) (id : Nat) (data : Bytes) (field : Nat) : Bytes :=
  idBytes little (builtWord ext id) ++ [BitVec.ofNat 8 data.length, 0, 0, 0] ++ data ++ zeros (field - data.length)

/-- What PARSE answers on a buffer of 8 or more bytes (R52, R53, R55, R74), the form given. -/
def wireParse (little fd : Bool) (buf : Bytes) : Frame :=
  let dlc := if fd then (buf.getD 4 0).toNat else (buf.getD 4 0).toNat % 16
  { id := idValue little buf % 2 ^ 29
    extended := decide (2 ^ 31 ≤ idValue little buf)
    data := if 8 + dlc ≤ buf.length then (buf.drop 8).take dlc else []
    fd := fd }

/-- A word with its four bytes reversed, `bswap32` of R81. -/
def swapBytes (w : Nat) : Nat :=
  (w % 256) * 2 ^ 24 + (w / 2 ^ 8 % 256) * 2 ^ 16 + (w / 2 ^ 16 % 256) * 2 ^ 8 + w / 2 ^ 24 % 256

/-- Bit `i` of an integer in two's complement (R8, R94). -/
def rawBit (raw : Int) (i : Nat) : Bool := decide (raw / 2 ^ i % 2 = 1)

/-- The raw value passes the range validation (R92). -/
def rawFits (sig : DbcSignal) (raw : Int) : Prop :=
  (sig.sign = .unsigned → 0 ≤ raw) ∧
  (sig.sign = .signed → -(2 ^ (sig.length - 1)) ≤ raw ∧ raw ≤ 2 ^ (sig.length - 1) - 1)

/-- `start_bit` is not negative and every position of the signal lies in `[0, 8·n)` (R93, R97, R99). -/
def fitsIn (sig : DbcSignal) (n : Nat) : Prop :=
  0 ≤ sig.startBit ∧ ∀ i < sig.length, 0 ≤ bitPos sig i ∧ bitPos sig i < 8 * (n : Int)

/-- The signal's footprint holds position `p` (R107). -/
def touches (sig : DbcSignal) (p : Int) : Prop := ∃ i < sig.length, bitPos sig i = p

/-- `raw` is a nearest integer to `(phys - offset) / factor` (R90, R91). -/
def nearestRaw (sig : DbcSignal) (phys : Rat) (raw : Int) : Prop :=
  |(raw : Rat) - (phys - sig.offset) / sig.factor| ≤ 1 / 2

/-- `out` is `pl` with `raw` written as the signal `sig`: bit `i` of `raw` at `bit_pos(i)`, and every position outside
the footprint as it was (R97, R38). -/
def packedInto (sig : DbcSignal) (raw : Int) (pl out : Bytes) : Prop :=
  out.length = pl.length ∧
  (∀ i < sig.length, bitRead out (bitPos sig i).toNat = rawBit raw i) ∧
  ∀ p < 8 * pl.length, ¬ touches sig (p : Int) → bitRead out p = bitRead pl p

/-- `v` is the raw value the payload holds for the signal: its low `length` bits stand at the signal's positions, and it
lies in the range of R100, which no two such values do. -/
def holdsRaw (sig : DbcSignal) (pl : Bytes) (v : Int) : Prop :=
  (∀ i < sig.length, rawBit v i = bitRead pl (bitPos sig i).toNat) ∧
  (sig.sign = .unsigned → 0 ≤ v ∧ v < 2 ^ sig.length) ∧
  (sig.sign = .signed → -(2 ^ (sig.length - 1)) ≤ v ∧ v ≤ 2 ^ (sig.length - 1) - 1)

/-- The error kinds R180 lists for each operation; `IllegalRequest` is of a header, so of none. -/
def mayRaise : Instr → List ErrorKind
  | .cfgWr _ | .cfgRd => []
  | .buildD _ _ _ | .buildC _ _ _ | .buildFd _ _ _ => [.invalidLength]
  | .parseAuto _ | .parseC _ | .parseFd _ => [.incomplete]
  | .sigPack _ _ _ _ | .sigEnc _ _ _ _ => [.signalOutOfRange, .signalExceedsMessage, .bitPositionOutOfBounds]
  | .sigUnpack _ _ | .sigDec _ _ => [.bitPositionOutOfBounds]
  | .msgEnc _ _ => [.signalOutOfRange, .signalExceedsMessage]
  | .msgDec _ _ => [.bitPositionOutOfBounds]

/-- The state after an answer: the response on its port and everything else as it was. -/
def answered (s : State) (r : Response) : State := { s with response := some r }

/-- A value map's requirement on one provided signal: it fits the message, and every nearest integer to its scaled value
is in range (R90 to R93), so that the open tie of `round` does not matter. -/
def packable (sig : DbcSignal) (phys : Rat) (dlc : Nat) : Prop :=
  fitsIn sig dlc ∧ ∀ raw, nearestRaw sig phys raw → rawFits sig raw

end Sys2Proof.Machine
end

