-- ==== Sys2Proof/Certificates/Slice0/Obligations.lean ====
section
/-! DEFINITION. The statements for the provers. Each formalises the rules of spec/ its docstring names, over every state
and every operand the rule speaks of. `answered s r` is `s` with the response `r` on its port and nothing else changed,
so an equation `exec … = .next (answered s r)` states the result, that the operation completes, and its whole frame. -/

open Sys2Proof Sys2Proof.Machine

/-! ## Reset and the control register -/

/-- R210: after reset `CFG` is zero, and reads `0x00000000`. -/
def Obligations.ResetLeavesCfgZero : Prop :=
  State.reset.cfg = 0#32 ∧ exec .cfgRd State.reset = .next (answered State.reset (.ok (.value 0#32)))

/-- The ports are empty after reset: the MODEL's form of "no request is in progress and none is remembered" (R211), in
fields that are its own (log entry 2). -/
def Obligations.ResetPortsAreEmpty : Prop := State.reset.requests = [] ∧ State.reset.response = none

/-- R130: CFG.WR takes `ENDIAN` from bit 0 and `FD` from bit 1 of the value, ignores the other bits, and answers `OK`
with no result. That the reserved bits of `CFG` stay as stored is the model's reading of R14 (DEDUCED, log entry
11). -/
def Obligations.CfgWrSetsTheTwoFields : Prop :=
  (∀ b : Body, decode ⟨0x00000001#32, b⟩ = .ok (.cfgWr b.value)) ∧
  ∀ (s : State) (value : Word), ∃ c : Word,
    exec (.cfgWr value) s = .next (answered { s with cfg := c } (.ok .none)) ∧
    c.getLsbD 0 = value.getLsbD 0 ∧ c.getLsbD 1 = value.getLsbD 1 ∧
    ∀ k, 2 ≤ k → c.getLsbD k = s.cfg.getLsbD k

/-- R131: CFG.RD answers `FD` in bit 1, `ENDIAN` in bit 0 and zero elsewhere, whatever the register holds. -/
def Obligations.CfgRdAnswersTheTwoFields : Prop :=
  (∀ b : Body, decode ⟨0x00000002#32, b⟩ = .ok .cfgRd) ∧
  ∀ s : State, ∃ v : Word, exec .cfgRd s = .next (answered s (.ok (.value v))) ∧
    v.toNat = 2 * (s.cfg.getLsbD 1).toNat + (s.cfg.getLsbD 0).toNat

/-- R14, R130, R131, R216: after a CFG.WR, whatever requests were answered before, CFG.RD answers the value written
cut to its low two bits. -/
def Obligations.CfgRdAfterCfgWr : Prop :=
  ∀ (s t : State) (value : Word), exec (.cfgWr value) s = .next t →
    ∃ v : Word, exec .cfgRd t = .next (answered t (.ok (.value v))) ∧ v.toNat = value.toNat % 4

/-- R14, R40: `CFG` is written by CFG.WR alone. A step that changes it served a CFG.WR. -/
def Obligations.OnlyCfgWrWritesCfg : Prop :=
  ∀ s t : State, step s = .next t → t.cfg ≠ s.cfg →
    ∃ r rest value, s.requests = r :: rest ∧ decode r = .ok (.cfgWr value) ∧ t.response = some (.ok .none)

/-! ## The frame codec -/

/-- R71: BUILD.C answers the classic frame of R50, and `InvalidLength` above 8 data bytes. -/
def Obligations.BuildCRule : Prop :=
  (∀ (ext : Bool) (b : Body), decode ⟨0x00000011#32 ||| (if ext then 0x100#32 else 0#32), b⟩ = .ok (.buildC ext b.id b.data)) ∧
  ∀ (s : State) (ext : Bool) (id : Word) (data : Bytes),
    (data.length ≤ 8 → exec (.buildC ext id data) s =
      .next (answered s (.ok (.bytes (wireFrame (s.cfg.getLsbD 0) ext id.toNat data 8))))) ∧
    (8 < data.length → exec (.buildC ext id data) s = .next (answered s (.error .invalidLength)))

/-- R72: BUILD.FD answers the FD frame of R51, and `InvalidLength` above 64 data bytes. -/
def Obligations.BuildFdRule : Prop :=
  (∀ (ext : Bool) (b : Body), decode ⟨0x00000012#32 ||| (if ext then 0x100#32 else 0#32), b⟩ = .ok (.buildFd ext b.id b.data)) ∧
  ∀ (s : State) (ext : Bool) (id : Word) (data : Bytes),
    (data.length ≤ 64 → exec (.buildFd ext id data) s =
      .next (answered s (.ok (.bytes (wireFrame (s.cfg.getLsbD 0) ext id.toNat data 64))))) ∧
    (64 < data.length → exec (.buildFd ext id data) s = .next (answered s (.error .invalidLength)))

/-- R73: BUILD.D takes the form from `CFG.FD`, and with it the length limit. -/
def Obligations.BuildDRule : Prop :=
  (∀ (ext : Bool) (b : Body), decode ⟨0x00000010#32 ||| (if ext then 0x100#32 else 0#32), b⟩ = .ok (.buildD ext b.id b.data)) ∧
  ∀ (s : State) (ext : Bool) (id : Word) (data : Bytes) (field : Nat),
    field = (if s.cfg.getLsbD 1 then 64 else 8) →
    (data.length ≤ field → exec (.buildD ext id data) s =
      .next (answered s (.ok (.bytes (wireFrame (s.cfg.getLsbD 0) ext id.toNat data field))))) ∧
    (field < data.length → exec (.buildD ext id data) s = .next (answered s (.error .invalidLength)))

/-- R75: PARSE.AUTO reads the buffer as FD when it has 72 bytes or more and as classic otherwise, and answers
`Incomplete` below 8 bytes. -/
def Obligations.ParseAutoRule : Prop :=
  (∀ b : Body, decode ⟨0x00000018#32, b⟩ = .ok (.parseAuto b.buf)) ∧
  ∀ (s : State) (buf : Bytes),
    (8 ≤ buf.length → exec (.parseAuto buf) s =
      .next (answered s (.ok (.frame (wireParse (s.cfg.getLsbD 0) (decide (72 ≤ buf.length)) buf))))) ∧
    (buf.length < 8 → exec (.parseAuto buf) s = .next (answered s (.error .incomplete)))

/-- R76: PARSE.C reads the buffer as classic whatever its length. -/
def Obligations.ParseCRule : Prop :=
  (∀ b : Body, decode ⟨0x00000019#32, b⟩ = .ok (.parseC b.buf)) ∧
  ∀ (s : State) (buf : Bytes),
    (8 ≤ buf.length → exec (.parseC buf) s =
      .next (answered s (.ok (.frame (wireParse (s.cfg.getLsbD 0) false buf))))) ∧
    (buf.length < 8 → exec (.parseC buf) s = .next (answered s (.error .incomplete)))

/-- R77: PARSE.FD reads the buffer as FD whatever its length. -/
def Obligations.ParseFdRule : Prop :=
  (∀ b : Body, decode ⟨0x0000001A#32, b⟩ = .ok (.parseFd b.buf)) ∧
  ∀ (s : State) (buf : Bytes),
    (8 ≤ buf.length → exec (.parseFd buf) s =
      .next (answered s (.ok (.frame (wireParse (s.cfg.getLsbD 0) true buf))))) ∧
    (buf.length < 8 → exec (.parseFd buf) s = .next (answered s (.error .incomplete)))

/-- R78: what BUILD.C builds, PARSE.AUTO and PARSE.C read back, in every later state of the same byte order. -/
def Obligations.ClassicFrameRoundTrip : Prop :=
  ∀ (s : State) (id : Nat) (ext : Bool) (data : Bytes), id < 2 ^ 29 → data.length ≤ 8 →
    ∃ wb, exec (.buildC ext (BitVec.ofNat 32 id) data) s = .next (answered s (.ok (.bytes wb))) ∧
      ∀ s' : State, s'.cfg.getLsbD 0 = s.cfg.getLsbD 0 →
        exec (.parseAuto wb) s' = .next (answered s' (.ok (.frame ⟨id, ext, data, false⟩))) ∧
        exec (.parseC wb) s' = .next (answered s' (.ok (.frame ⟨id, ext, data, false⟩)))

/-- R79: what BUILD.FD builds, PARSE.AUTO and PARSE.FD read back, in every later state of the same byte order. -/
def Obligations.FdFrameRoundTrip : Prop :=
  ∀ (s : State) (id : Nat) (ext : Bool) (data : Bytes), id < 2 ^ 29 → data.length ≤ 64 →
    ∃ wb, exec (.buildFd ext (BitVec.ofNat 32 id) data) s = .next (answered s (.ok (.bytes wb))) ∧
      ∀ s' : State, s'.cfg.getLsbD 0 = s.cfg.getLsbD 0 →
        exec (.parseAuto wb) s' = .next (answered s' (.ok (.frame ⟨id, ext, data, true⟩))) ∧
        exec (.parseFd wb) s' = .next (answered s' (.ok (.frame ⟨id, ext, data, true⟩)))

/-- R80: `extended` changes bit 31 of the identifier word alone: the most significant bit of byte 0 when big-endian, of
byte 3 when little-endian. It is clear in the frame built without `extended` and set in the one built with it; every
other bit of the frame is the same. -/
def Obligations.EffBitIsIndependent : Prop :=
  ∀ (s : State) (id : Word) (data : Bytes), data.length ≤ 8 →
    ∃ plain flagged : Bytes,
      exec (.buildC false id data) s = .next (answered s (.ok (.bytes plain))) ∧
      exec (.buildC true id data) s = .next (answered s (.ok (.bytes flagged))) ∧
      bitRead plain (if s.cfg.getLsbD 0 then 31 else 7) = false ∧
      ∀ p < 128, bitRead flagged p =
        (if p = (if s.cfg.getLsbD 0 then 31 else 7) then true else bitRead plain p)

/-- R81: a frame built under one byte order and parsed under the other has the identifier word's bytes reversed, `EFF`
taken from what was bit 7; DLC and data are as built. -/
def Obligations.MixedByteOrderSwapsIdentifier : Prop :=
  ∀ (s s' : State) (fd ext : Bool) (id : Word) (data : Bytes),
    data.length ≤ (if fd then 64 else 8) → s'.cfg.getLsbD 0 ≠ s.cfg.getLsbD 0 →
    ∃ wb, exec (if fd then .buildFd ext id data else .buildC ext id data) s = .next (answered s (.ok (.bytes wb))) ∧
      exec (.parseAuto wb) s' = .next (answered s' (.ok (.frame
        ⟨swapBytes (builtWord ext id.toNat) % 2 ^ 29, (builtWord ext id.toNat).testBit 7, data, fd⟩)))

/-- R32, R34 (and R33, the spec's own inference): the byte order reaches the identifier word alone: the first four
bytes are reversed, and DLC, reserved bytes and payload are the same. -/
def Obligations.ByteOrderReachesIdentifierOnly : Prop :=
  ∀ (s s' : State) (ext : Bool) (id : Word) (data : Bytes),
    data.length ≤ 64 → s'.cfg.getLsbD 0 ≠ s.cfg.getLsbD 0 →
    ∃ wb wb', exec (.buildFd ext id data) s = .next (answered s (.ok (.bytes wb))) ∧
      exec (.buildFd ext id data) s' = .next (answered s' (.ok (.bytes wb'))) ∧
      wb'.take 4 = (wb.take 4).reverse ∧ wb'.drop 4 = wb.drop 4

/-- R82: a classic parse does not see the high nibble of byte 4. -/
def Obligations.ClassicParseClampsDlc : Prop :=
  ∀ (s : State) (buf : Bytes), 8 ≤ buf.length →
    exec (.parseC buf) s = exec (.parseC (buf.set 4 (buf.getD 4 0 &&& 0x0F#8))) s

/-- R28, the spec's own inference from R70 and R74: the frame PARSE answers has a 29-bit identifier; its data has at
most 64 bytes if it is FD and the buffer at most 72 bytes, and at most 8 if it is classic and the buffer has at most
16 bytes or the low nibble of byte 4 is at most 8. -/
def Obligations.ParsedFrameKeepsInvariants : Prop :=
  ∀ (s t : State) (buf : Bytes) (f : Frame) (i : Instr),
    i = .parseAuto buf ∨ i = .parseC buf ∨ i = .parseFd buf →
    exec i s = .next t → t.response = some (.ok (.frame f)) →
    f.id < 2 ^ 29 ∧
    (f.fd = true → buf.length ≤ 72 → f.data.length ≤ 64) ∧
    (f.fd = false → (buf.length ≤ 16 ∨ (buf.getD 4 0).toNat % 16 ≤ 8) → f.data.length ≤ 8)

/-! ## The signal codec -/

/-- R95, R96: the position of bit `i` of the field, in Intel and in Motorola order. -/
def Obligations.BitPositionFormulas : Prop :=
  ∀ (sig : DbcSignal) (i : Nat),
    (sig.endianness = .little → bitPos sig i = sig.startBit + i) ∧
    (sig.endianness = .big → 0 ≤ sig.startBit →
      ∀ byte bit : Int, 0 ≤ bit → bit < 8 → sig.startBit = 8 * byte + bit → bitPos sig i = 8 * byte + (7 - bit) - i)

/-- R112 and scenario S6: `12|12@0+` packs `0xABC` into three zero bytes as `D5 03 00`, and unpacks it again. -/
def Obligations.ConformsToS6 : Prop :=
  ∀ (s : State) (sig : DbcSignal), sig.startBit = 12 → sig.length = 12 → sig.endianness = .big →
    sig.sign = .unsigned → sig.factor ≠ 0 →
    exec (.sigPack sig 0xABC 3 [0, 0, 0]) s = .next (answered s (.ok (.pl [0xD5#8, 0x03#8, 0x00#8]))) ∧
    exec (.sigUnpack sig [0xD5#8, 0x03#8, 0x00#8]) s = .next (answered s (.ok (.raw 0xABC)))

/-- R107, the spec's own inference from R95 and R96: the positions of a signal are an interval, each position that of
one bit. Little-endian from `start_bit` up; big-endian from `base` down, `base` being `start_bit` with its place in
the byte mirrored. -/
def Obligations.FootprintIsAnInterval : Prop :=
  ∀ sig : DbcSignal, 0 ≤ sig.startBit →
    (∀ i j, i < sig.length → j < sig.length → bitPos sig i = bitPos sig j → i = j) ∧
    (sig.endianness = .little → ∀ p : Int, touches sig p ↔ sig.startBit ≤ p ∧ p ≤ sig.startBit + sig.length - 1) ∧
    (sig.endianness = .big → ∀ base : Int, base = (sig.startBit / 8) * 8 + (7 - sig.startBit % 8) →
      ∀ p : Int, touches sig p ↔ base - sig.length + 1 ≤ p ∧ p ≤ base)

/-- R93's first remark, the spec's own inference (R107): the bounds check is two comparisons. -/
def Obligations.BoundsCheckIsTwoComparisons : Prop :=
  ∀ (sig : DbcSignal) (dlc : Nat), 1 ≤ sig.length → 0 ≤ sig.startBit →
    (sig.endianness = .little → (fitsIn sig dlc ↔ sig.startBit + sig.length ≤ 8 * (dlc : Int))) ∧
    (sig.endianness = .big → ∀ base : Int, base = (sig.startBit / 8) * 8 + (7 - sig.startBit % 8) →
      (fitsIn sig dlc ↔ 0 ≤ base - sig.length + 1 ∧ base < 8 * (dlc : Int)))

/-- R103: SIG.PACK. A raw value in range whose signal fits the message and the payload is written, and only there;
otherwise the first check that fails, in the order range, bounds, payload, gives the error. -/
def Obligations.SigPackRule : Prop :=
  (∀ b : Body, decode ⟨0x00000020#32, b⟩ = .ok (.sigPack b.sig b.raw b.dlc b.pl)) ∧
  ∀ (s : State) (sig : DbcSignal) (raw : Int) (dlc : Nat) (pl : Bytes), sig.wellFormed = true →
    (rawFits sig raw → fitsIn sig dlc → fitsIn sig pl.length →
      ∃ out, exec (.sigPack sig raw dlc pl) s = .next (answered s (.ok (.pl out))) ∧ packedInto sig raw pl out) ∧
    (¬ rawFits sig raw → exec (.sigPack sig raw dlc pl) s = .next (answered s (.error .signalOutOfRange))) ∧
    (rawFits sig raw → ¬ fitsIn sig dlc →
      exec (.sigPack sig raw dlc pl) s = .next (answered s (.error .signalExceedsMessage))) ∧
    (rawFits sig raw → fitsIn sig dlc → ¬ fitsIn sig pl.length →
      exec (.sigPack sig raw dlc pl) s = .next (answered s (.error .bitPositionOutOfBounds)))

/-- R104: SIG.UNPACK answers the value the payload holds, and `BitPositionOutOfBounds` when `start_bit` is negative or a
position lies outside the payload. -/
def Obligations.SigUnpackRule : Prop :=
  (∀ b : Body, decode ⟨0x00000021#32, b⟩ = .ok (.sigUnpack b.sig b.pl)) ∧
  ∀ (s : State) (sig : DbcSignal) (pl : Bytes), sig.wellFormed = true →
    (fitsIn sig pl.length →
      ∃ v, exec (.sigUnpack sig pl) s = .next (answered s (.ok (.raw v))) ∧ holdsRaw sig pl v) ∧
    (¬ fitsIn sig pl.length → exec (.sigUnpack sig pl) s = .next (answered s (.error .bitPositionOutOfBounds)))

/-- R105: SIG.ENC is SIG.PACK of a nearest integer to `(phys - offset) / factor`, one integer for every payload and
state. -/
def Obligations.SigEncScalesThenPacks : Prop :=
  (∀ b : Body, decode ⟨0x00000022#32, b⟩ = .ok (.sigEnc b.sig b.phys b.dlc b.pl)) ∧
  ∀ (sig : DbcSignal) (phys : Rat), sig.wellFormed = true →
    ∃ raw, nearestRaw sig phys raw ∧
      ∀ (s : State) (dlc : Nat) (pl : Bytes), exec (.sigEnc sig phys dlc pl) s = exec (.sigPack sig raw dlc pl) s

/-- R90, R92, R93, R97, R105: SIG.ENC completes where every nearest integer is in range and the signal fits the message
and the payload, and answers `SignalOutOfRange` where none is in range. -/
def Obligations.SigEncCompletes : Prop :=
  ∀ (s : State) (sig : DbcSignal) (phys : Rat) (dlc : Nat) (pl : Bytes), sig.wellFormed = true →
    (packable sig phys dlc → fitsIn sig pl.length →
      ∃ raw out, nearestRaw sig phys raw ∧ packedInto sig raw pl out ∧
        exec (.sigEnc sig phys dlc pl) s = .next (answered s (.ok (.pl out)))) ∧
    ((∀ raw, nearestRaw sig phys raw → ¬ rawFits sig raw) →
      exec (.sigEnc sig phys dlc pl) s = .next (answered s (.error .signalOutOfRange)))

/-- R106: SIG.DEC answers `raw·factor + offset` exactly, `raw` the value the payload holds, and
`BitPositionOutOfBounds` as SIG.UNPACK does. -/
def Obligations.SigDecRule : Prop :=
  (∀ b : Body, decode ⟨0x00000023#32, b⟩ = .ok (.sigDec b.sig b.pl)) ∧
  ∀ (s : State) (sig : DbcSignal) (pl : Bytes), sig.wellFormed = true →
    (fitsIn sig pl.length →
      ∃ v : Int, holdsRaw sig pl v ∧
        exec (.sigDec sig pl) s = .next (answered s (.ok (.phys (v * sig.factor + sig.offset))))) ∧
    (¬ fitsIn sig pl.length → exec (.sigDec sig pl) s = .next (answered s (.error .bitPositionOutOfBounds)))

/-- R108, the spec's own inference from R94, R97, R99 and R101: a raw value packed is unpacked again, and the payload
outside the footprint is as it was. -/
def Obligations.RawValueRoundTrip : Prop :=
  ∀ (s s' : State) (sig : DbcSignal) (raw : Int) (dlc : Nat) (pl : Bytes), sig.wellFormed = true →
    rawFits sig raw → (sig.sign = .unsigned → raw < 2 ^ sig.length) → fitsIn sig dlc → dlc ≤ pl.length →
    ∃ out, exec (.sigPack sig raw dlc pl) s = .next (answered s (.ok (.pl out))) ∧
      exec (.sigUnpack sig out) s' = .next (answered s' (.ok (.raw raw))) ∧
      ∀ p < 8 * pl.length, ¬ touches sig (p : Int) → bitRead out p = bitRead pl p

/-- R110: a signed signal of `n` bits rejects every raw value outside `[-2^(n-1), 2^(n-1) - 1]` with
`SignalOutOfRange`, whatever else is wrong, and no value inside. -/
def Obligations.SignedRangeIsExact : Prop :=
  ∀ (s : State) (sig : DbcSignal) (raw : Int) (dlc : Nat) (pl : Bytes), sig.wellFormed = true → sig.sign = .signed →
    (exec (.sigPack sig raw dlc pl) s = .next (answered s (.error .signalOutOfRange)) ↔
      raw < -(2 ^ (sig.length - 1)) ∨ 2 ^ (sig.length - 1) - 1 < raw)

/-- R111: an unsigned raw value of `2^length` or more is not rejected: its low `length` bits are written, with `OK`
where the signal fits, and every answer is the one for the value modulo `2^length`. -/
def Obligations.UnsignedOverflowIsTruncated : Prop :=
  ∀ (s : State) (sig : DbcSignal) (raw : Int) (dlc : Nat) (pl : Bytes), sig.wellFormed = true →
    sig.sign = .unsigned → 2 ^ sig.length ≤ raw →
    exec (.sigPack sig raw dlc pl) s = exec (.sigPack sig (raw % 2 ^ sig.length) dlc pl) s ∧
    (fitsIn sig dlc → fitsIn sig pl.length →
      ∃ out, exec (.sigPack sig raw dlc pl) s = .next (answered s (.ok (.pl out))) ∧ packedInto sig raw pl out)

/-- R96's closed form, the spec's own inference: packing big-endian at `start_bit` writes the bits that packing the
reversed field little-endian at `base - length + 1` writes. -/
def Obligations.MotorolaIsReversedIntel : Prop :=
  ∀ (sig : DbcSignal) (field reversed : Nat) (pl : Bytes), sig.endianness = .big → 0 ≤ sig.startBit →
    (∀ i < sig.length, reversed.testBit i = field.testBit (sig.length - 1 - i)) →
    ∀ base : Int, base = (sig.startBit / 8) * 8 + (7 - sig.startBit % 8) →
      writeBits sig field pl =
        writeBits { sig with endianness := .little, startBit := base - sig.length + 1 } reversed pl

/-- R91: `round` answers a nearest integer, is the identity on integers, and away from a tie answers the one nearest.
Of a tie nothing is said but the bound: the statement holds for every `ROUND_TIE`. -/
def Obligations.RoundIsNearest : Prop :=
  (∀ x : Rat, |(roundNearest x : Rat) - x| ≤ 1 / 2) ∧
  (∀ n : Int, roundNearest n = n) ∧
  ∀ (x : Rat) (n : Int), |(n : Rat) - x| < 1 / 2 → roundNearest x = n

/-- The half-step bound of R109, the spec's own inference from R90, R91 and R102: scaling to raw and back moves a
physical value by at most half of `|factor|`. -/
def Obligations.ScalingLosesHalfAStep : Prop :=
  ∀ (sig : DbcSignal) (phys : Rat), sig.factor ≠ 0 →
    |scaleToPhys sig (scaleToRaw sig phys) - phys| ≤ |sig.factor| / 2

/-! ## The message codec -/

/-- R120, R121, R38 (and R125, the spec's own inference): MSG.ENC of provided signals that are each packable answers
`dlc` bytes in which a position no provided signal touches is zero, and a position holds the bit of the last provided
signal that touches it. -/
def Obligations.MsgEncRule : Prop :=
  (∀ b : Body, decode ⟨0x00000030#32, b⟩ = .ok (.msgEnc b.msg b.values)) ∧
  ∀ (s : State) (msg : DbcMessage) (values : ValueMap), msg.wellFormed = true →
    (∀ sig ∈ msg.signals, ∀ phys, valueGet values sig.name = some phys → packable sig phys msg.dlc) →
    ∃ out, exec (.msgEnc msg values) s = .next (answered s (.ok (.data out))) ∧ out.length = msg.dlc ∧
      (∀ p < 8 * msg.dlc, (∀ sig ∈ msg.signals, valueGet values sig.name ≠ none → ¬ touches sig (p : Int)) →
        bitRead out p = false) ∧
      ∀ before sig after phys, msg.signals = before ++ sig :: after → valueGet values sig.name = some phys →
        ∃ raw, nearestRaw sig phys raw ∧ ∀ i < sig.length,
          (∀ later ∈ after, valueGet values later.name ≠ none → ¬ touches later (bitPos sig i)) →
          bitRead out (bitPos sig i).toNat = rawBit raw i

/-- R120, R188: the first provided signal that fails gives MSG.ENC its error, `SignalOutOfRange` before
`SignalExceedsMessage`, and nothing else is answered. -/
def Obligations.MsgEncReportsFirstFailure : Prop :=
  ∀ (s : State) (msg : DbcMessage) (values : ValueMap) (before after : List DbcSignal) (sig : DbcSignal) (phys : Rat),
    msg.wellFormed = true → msg.signals = before ++ sig :: after → valueGet values sig.name = some phys →
    (∀ x ∈ before, ∀ q, valueGet values x.name = some q → packable x q msg.dlc) →
    ((∀ raw, nearestRaw sig phys raw → ¬ rawFits sig raw) →
      exec (.msgEnc msg values) s = .next (answered s (.error .signalOutOfRange))) ∧
    ((∀ raw, nearestRaw sig phys raw → rawFits sig raw) → ¬ fitsIn sig msg.dlc →
      exec (.msgEnc msg values) s = .next (answered s (.error .signalExceedsMessage)))

/-- R120: MSG.ENC reads the value map at the names of the message's signals and nowhere else. -/
def Obligations.MsgEncIgnoresUnknownKeys : Prop :=
  ∀ (s : State) (msg : DbcMessage) (values values' : ValueMap),
    (∀ sig ∈ msg.signals, valueGet values sig.name = valueGet values' sig.name) →
    exec (.msgEnc msg values) s = exec (.msgEnc msg values') s

/-- R122, R123: MSG.DEC answers one entry for each signal name, of two signals with one name the later one's, and
`BitPositionOutOfBounds` when some signal does not fit the payload presented. -/
def Obligations.MsgDecRule : Prop :=
  (∀ b : Body, decode ⟨0x00000031#32, b⟩ = .ok (.msgDec b.msg b.pl)) ∧
  ∀ (s : State) (msg : DbcMessage) (pl : Bytes), msg.wellFormed = true →
    ((∀ sig ∈ msg.signals, fitsIn sig pl.length) →
      ∃ m : ValueMap, exec (.msgDec msg pl) s = .next (answered s (.ok (.signals m))) ∧
        (m.map Prod.fst).Nodup ∧
        (∀ name, valueGet m name ≠ none ↔ ∃ sig ∈ msg.signals, sig.name = name) ∧
        ∀ before sig after, msg.signals = before ++ sig :: after → (∀ x ∈ after, x.name ≠ sig.name) →
          ∃ v : Int, holdsRaw sig pl v ∧ valueGet m sig.name = some (v * sig.factor + sig.offset)) ∧
    ((∃ sig ∈ msg.signals, ¬ fitsIn sig pl.length) →
      exec (.msgDec msg pl) s = .next (answered s (.error .bitPositionOutOfBounds)))

/-- R126, the spec's own inference: for signals with disjoint footprints and values whose raw forms are in range,
MSG.DEC of what MSG.ENC answers maps every provided signal to a value within half of `|factor|` and every other one to
its offset. The names are taken distinct: with a name twice the map has one entry (R122). -/
def Obligations.MessageRoundTrip : Prop :=
  ∀ (s s' : State) (msg : DbcMessage) (values : ValueMap), msg.wellFormed = true →
    (msg.signals.map DbcSignal.name).Nodup →
    msg.signals.Pairwise (fun a b => ∀ p, touches a p → ¬ touches b p) →
    (∀ sig ∈ msg.signals, fitsIn sig msg.dlc) →
    (∀ sig ∈ msg.signals, ∀ phys, valueGet values sig.name = some phys → ∀ raw, nearestRaw sig phys raw →
      rawFits sig raw ∧ (sig.sign = .unsigned → raw < 2 ^ sig.length)) →
    ∃ out m, exec (.msgEnc msg values) s = .next (answered s (.ok (.data out))) ∧
      exec (.msgDec msg out) s' = .next (answered s' (.ok (.signals m))) ∧
      ∀ sig ∈ msg.signals,
        (∀ phys, valueGet values sig.name = some phys →
          ∃ q, valueGet m sig.name = some q ∧ |q - phys| ≤ |sig.factor| / 2) ∧
        (valueGet values sig.name = none → valueGet m sig.name = some sig.offset)

/-! ## Errors and refusals -/

/-- R180: the number of each status, and which operations answer which error kind. -/
def Obligations.ErrorKindsByOperation : Prop :=
  (∀ r, (Response.ok r).status = 0) ∧
  ([ErrorKind.invalidLength, .incomplete, .signalOutOfRange, .signalExceedsMessage, .bitPositionOutOfBounds,
    .illegalRequest].map fun e => (Response.error e).status.toNat) = [1, 2, 3, 4, 5, 6] ∧
  ∀ (i : Instr) (s t : State) (e : ErrorKind), exec i s = .next t → t.response = some (.error e) → e ∈ mayRaise i

/-- R189: an operation that fails leaves `CFG` and everything but the response as it was. -/
def Obligations.ErrorLeavesStateUnchanged : Prop :=
  ∀ (i : Instr) (s t : State) (e : ErrorKind), exec i s = .next t → t.response = some (.error e) →
    t = answered s (.error e)

/-- R61, R132: a header with an unknown `OP`, a non-zero reserved bit, or `EXT = 1` outside BUILD is answered with
`IllegalRequest` whatever the body holds; `CFG` is unchanged and the request is gone. -/
def Obligations.IllegalHeaderIsAnswered : Prop :=
  ∀ (s : State) (r : Request) (rest : List Request), s.requests = r :: rest →
    (r.header.toNat % 256 ∉ [0x01, 0x02, 0x10, 0x11, 0x12, 0x18, 0x19, 0x1A, 0x20, 0x21, 0x22, 0x23, 0x30, 0x31] ∨
      r.header.toNat / 512 ≠ 0 ∨
      (r.header.getLsbD 8 = true ∧ r.header.toNat % 256 ∉ [0x10, 0x11, 0x12])) →
    step s = .next { s with requests := rest, response := some (.error .illegalRequest) }

/-- R29: an operation whose descriptor is not well formed is refused, not answered. That this holds of SIG.PACK and
SIG.UNPACK for factor 0 and of MSG.DEC for `dlc` above 64, which they do not read, is the model's reading of R29
(DEDUCED, log entry 9). -/
def Obligations.IllFormedDescriptorIsRefused : Prop :=
  (∀ (s : State) (sig : DbcSignal) (raw : Int) (phys : Rat) (dlc : Nat) (pl : Bytes),
    ¬ (1 ≤ sig.length ∧ sig.length ≤ 64 ∧ sig.factor ≠ 0) →
    exec (.sigPack sig raw dlc pl) s = .refused .illFormedDescriptor ∧
    exec (.sigUnpack sig pl) s = .refused .illFormedDescriptor ∧
    exec (.sigEnc sig phys dlc pl) s = .refused .illFormedDescriptor ∧
    exec (.sigDec sig pl) s = .refused .illFormedDescriptor) ∧
  ∀ (s : State) (msg : DbcMessage) (values : ValueMap) (pl : Bytes),
    ¬ (msg.dlc ≤ 64 ∧ ∀ sig ∈ msg.signals, 1 ≤ sig.length ∧ sig.length ≤ 64 ∧ sig.factor ≠ 0) →
    exec (.msgEnc msg values) s = .refused .illFormedDescriptor ∧
    exec (.msgDec msg pl) s = .refused .illFormedDescriptor

/-! ## Encoding -/

/-- R60: an operation is selected when `header & mask = match`, row by row of the operation map. -/
def Obligations.OperationMapSelects : Prop :=
  ∀ (h : Word) (b : Body),
    (h &&& 0xFFFFFFFF#32 = 0x00000001#32 → decode ⟨h, b⟩ = .ok (.cfgWr b.value)) ∧
    (h &&& 0xFFFFFFFF#32 = 0x00000002#32 → decode ⟨h, b⟩ = .ok .cfgRd) ∧
    (h &&& 0xFFFFFEFF#32 = 0x00000010#32 → decode ⟨h, b⟩ = .ok (.buildD (h.getLsbD 8) b.id b.data)) ∧
    (h &&& 0xFFFFFEFF#32 = 0x00000011#32 → decode ⟨h, b⟩ = .ok (.buildC (h.getLsbD 8) b.id b.data)) ∧
    (h &&& 0xFFFFFEFF#32 = 0x00000012#32 → decode ⟨h, b⟩ = .ok (.buildFd (h.getLsbD 8) b.id b.data)) ∧
    (h &&& 0xFFFFFFFF#32 = 0x00000018#32 → decode ⟨h, b⟩ = .ok (.parseAuto b.buf)) ∧
    (h &&& 0xFFFFFFFF#32 = 0x00000019#32 → decode ⟨h, b⟩ = .ok (.parseC b.buf)) ∧
    (h &&& 0xFFFFFFFF#32 = 0x0000001A#32 → decode ⟨h, b⟩ = .ok (.parseFd b.buf)) ∧
    (h &&& 0xFFFFFFFF#32 = 0x00000020#32 → decode ⟨h, b⟩ = .ok (.sigPack b.sig b.raw b.dlc b.pl)) ∧
    (h &&& 0xFFFFFFFF#32 = 0x00000021#32 → decode ⟨h, b⟩ = .ok (.sigUnpack b.sig b.pl)) ∧
    (h &&& 0xFFFFFFFF#32 = 0x00000022#32 → decode ⟨h, b⟩ = .ok (.sigEnc b.sig b.phys b.dlc b.pl)) ∧
    (h &&& 0xFFFFFFFF#32 = 0x00000023#32 → decode ⟨h, b⟩ = .ok (.sigDec b.sig b.pl)) ∧
    (h &&& 0xFFFFFFFF#32 = 0x00000030#32 → decode ⟨h, b⟩ = .ok (.msgEnc b.msg b.values)) ∧
    (h &&& 0xFFFFFFFF#32 = 0x00000031#32 → decode ⟨h, b⟩ = .ok (.msgDec b.msg b.pl))

/-- R60, R61: no header is selected by two rows of the operation map. -/
def Obligations.OperationMapIsUnambiguous : Prop :=
  ∀ (h : Word) (a b : OpRow), a ∈ opTable → b ∈ opTable → a.selects h = true → b.selects h = true → a = b

/-- R59, R60, R20: every operation, with every operand, is what its encoding decodes to. -/
def Obligations.DecodeInvertsEncode : Prop :=
  ∀ i : Instr, decode (encode i) = .ok i

/-- R59, R61: a header that decodes is the header of the operation's encoding: each header has one meaning and no bit of
it is dropped. -/
def Obligations.EncodeInvertsDecodeOnHeaders : Prop :=
  ∀ (r : Request) (i : Instr), decode r = .ok i → (encode i).header = r.header

/-- R60, R61, and the headers of 95_test_vectors.md sections 2 and 5.2: a few words, written out from the tables. The
operands `0` and `[]` are those of the blank body, the model's choice (log entry 4). -/
def Obligations.SampleHeadersDecode : Prop :=
  decodeTableWord 32 0x00000001 = some (.cfgWr 0#32) ∧
  decodeTableWord 32 0x00000112 = some (.buildFd true 0#32 []) ∧
  decodeTableWord 32 0x00000010 = some (.buildD false 0#32 []) ∧
  decodeTableWord 32 0x00000003 = none ∧ decodeTableWord 32 0x00000118 = none ∧
  decodeTableWord 32 0x00000211 = none ∧ decodeTableWord 32 0x80000010 = none

/-! ## The step -/

/-- R13, R23: when the next request decodes to an operation with operands a request can carry, the step is that operation
on the state with the request taken off the port, whether or not its descriptor is well formed (R29). -/
def Obligations.StepRunsDecodedRequest : Prop :=
  ∀ (s : State) (r : Request) (rest : List Request) (i : Instr), s.requests = r :: rest → decode r = .ok i →
    i.presentable = true → step s = exec i { s with requests := rest }

/-- R192 read as DEDUCED (log entry 6): with no request nothing happens. And the model's own choice for operands no
request can carry (R7, R20; log entry 7): refused, by name. -/
def Obligations.StepWithoutServableRequest : Prop :=
  (∀ s : State, s.requests = [] → step s = .next s) ∧
  ∀ (s : State) (r : Request) (rest : List Request) (i : Instr), s.requests = r :: rest → decode r = .ok i →
    i.presentable = false → step s = .refused .notPresentable

/-- R26, the spec's own inference from R13 and R20: the response and the next `CFG` depend on `CFG` and the request
alone: not on the response before, nor on the requests to come. -/
def Obligations.ResponseDependsOnCfgAndRequest : Prop :=
  ∀ (s s' t : State) (r : Request) (rest rest' : List Request), s.requests = r :: rest → s'.requests = r :: rest' →
    s.cfg = s'.cfg → step s = .next t →
    ∃ t', step s' = .next t' ∧ t'.cfg = t.cfg ∧ t'.response = t.response ∧ t.requests = rest ∧ t'.requests = rest'

/-- R13, R21, R190: every well-formed request gets exactly one response and the next request then stands first. -/
def Obligations.EveryWellFormedRequestIsAnswered : Prop :=
  ∀ (s : State) (r : Request) (rest : List Request) (i : Instr), s.requests = r :: rest → decode r = .ok i →
    i.wellFormed = true → ∃ t x, step s = .next t ∧ t.requests = rest ∧ t.response = some x

/-- R13, R41, R190: the block serves a host's whole list of requests, each well formed or illegal, in as many steps; no
error stops it. -/
def Obligations.RunServesEveryRequest : Prop :=
  ∀ s : State,
    (∀ r ∈ s.requests, ∀ i, decode r = .ok i → i.wellFormed = true) →
    ∃ t, Sys2Proof.core.run s.requests.length s = .next t ∧ t.requests = []

/-- The invariant holds after reset (R27). -/
def Obligations.ResetSatisfiesInvariant : Prop := State.reset.Inv

/-- R14, R19, R21, R70, R74 (the frame bounds are R28, the spec's own inference): every step keeps the reserved bits
of `CFG` zero, and what it answers is a response in range: a built buffer laid out as R50 or R51, a parsed frame
within its bounds, a payload of at most 64 bytes, a raw value of at most 64 bits, a map with no key twice, a register
value with reserved bits zero. -/
def Obligations.StepKeepsInvariant : Prop :=
  ∀ s t : State, s.Inv → step s = .next t → t.Inv

/-! ## Host software -/

/-- R141: which identifiers a filter accepts. -/
def Obligations.FilterAcceptsExactly : Prop :=
  ∀ id : Nat, filterAccepts id .all = true ∧ (∀ v, filterAccepts id (.exact v) = true ↔ id = v) ∧
    (∀ lo hi incl, filterAccepts id (.range lo hi incl) = true ↔ lo ≤ id ∧ id ≤ hi) ∧
    (∀ ids, filterAccepts id (.set ids) = true ↔ id ∈ ids) ∧ filterAccepts id .other = true

/-- R149, R171: whatever happens in `send_raw`, every socket opened is closed once, and nothing is written unless the
block answered it. -/
def Obligations.SendRawClosesItsSocket : Prop :=
  ∀ (opens writes : Bool) (id : Word) (data : Bytes) (ext fd : Option Bool) (s : State),
    let actions := (sendRaw opens writes id data ext fd s).2.1
    actions.count .socketOpened = actions.count .socketClosed ∧ actions.count .socketOpened ≤ 1 ∧
    ∀ b, .wrote b ∈ actions →
      exec (sendOp id data ext fd) s = .next (answered s (.ok (.bytes b)))

/-- R164: `encode_can` of a name that no message of the catalog has answers `UnknownMessage`; of a name in the catalog it
ends as MSG.ENC of that message does: the message's id with the data it answers, its error propagated, or its
refusal. -/
def Obligations.EncodeCanFindsTheMessage : Prop :=
  ∀ (cat : Catalog) (name : Name) (values : ValueMap) (s : State),
    ((∀ m ∈ cat, m.name ≠ name) → encodeCan cat name values s = .error .unknownMessage) ∧
    ∀ m ∈ cat, m.name = name → (cat.map DbcMessage.name).Nodup → ValueMap.wellFormed values = true →
      (∀ data, exec (.msgEnc m values) s = .next (answered s (.ok (.data data))) →
        encodeCan cat name values s = .ok ((m.id, data), answered s (.ok (.data data)))) ∧
      (∀ e, exec (.msgEnc m values) s = .next (answered s (.error e)) →
        encodeCan cat name values s = .error (.block e)) ∧
      ∀ r, exec (.msgEnc m values) s = .refused r → encodeCan cat name values s = .error (.refused r)

/-- R6, R65, R149: `send_raw` issues BUILD.D when `fd` is omitted, BUILD.C when it is false and BUILD.FD when it is true,
with `EXT` as the caller gives `extended` and 0 when it is omitted. Omitting `extended` is saying `false`, in
`send_with_dbc` too. -/
def Obligations.SendRawDefaults : Prop :=
  (∀ (id : Word) (data : Bytes) (e : Bool),
    sendOp id data none none = .buildD false id data ∧ sendOp id data (some e) none = .buildD e id data ∧
    sendOp id data none (some false) = .buildC false id data ∧ sendOp id data (some e) (some false) = .buildC e id data ∧
    sendOp id data none (some true) = .buildFd false id data ∧ sendOp id data (some e) (some true) = .buildFd e id data) ∧
  ∀ (opens writes : Bool) (cat : Catalog) (name : Name) (values : ValueMap) (id : Word) (data : Bytes)
    (fd : Option Bool) (s : State),
    sendRaw opens writes id data none fd s = sendRaw opens writes id data (some false) fd s ∧
    sendWithDbc opens writes cat name values none fd s = sendWithDbc opens writes cat name values (some false) fd s
end

