-- ==== Sys2Proof/Laws/PerInstr.lean ====
section
/-! SUPPORT. Facts about every operation as syntax, one lemma for each constructor of Instr. -/

namespace Sys2Proof

/-- Bits 31:9 of a header are zero (R59). -/
@[simp] theorem headerWord_reserved (op : Op) (ext : Bool) : (headerWord op ext).extractLsb' 9 23 = 0#23 := by
  cases op <;> cases ext <;> decide

/-- Bit 8 of a header is `EXT` (R59). -/
@[simp] theorem headerExt_headerWord (op : Op) (ext : Bool) : headerExt (headerWord op ext) = ext := by
  cases op <;> cases ext <;> decide

end Sys2Proof

namespace Sys2Proof.Laws.EncodedHeader

/-- The header an operation encodes to keeps the form of R59: bits 31:9 are zero, and bit 8 is zero unless the operation
is one of the three BUILDs. -/
def Statement (i : Instr) : Prop :=
  (encode i).header.extractLsb' 9 23 = 0#23 ∧
  (headerExt (encode i).header = true →
    ∃ id data, i = .buildD true id data ∨ i = .buildC true id data ∨ i = .buildFd true id data)

theorem cfgWr (value : Word) : Statement (.cfgWr value) := by simp [Statement, encode]
theorem cfgRd : Statement .cfgRd := by simp [Statement, encode]
theorem buildD (ext : Bool) (id : Word) (data : Bytes) : Statement (.buildD ext id data) := by
  simp [Statement, encode]
theorem buildC (ext : Bool) (id : Word) (data : Bytes) : Statement (.buildC ext id data) := by
  simp [Statement, encode]
theorem buildFd (ext : Bool) (id : Word) (data : Bytes) : Statement (.buildFd ext id data) := by
  simp [Statement, encode]
theorem parseAuto (buf : Bytes) : Statement (.parseAuto buf) := by simp [Statement, encode]
theorem parseC (buf : Bytes) : Statement (.parseC buf) := by simp [Statement, encode]
theorem parseFd (buf : Bytes) : Statement (.parseFd buf) := by simp [Statement, encode]
theorem sigPack (sig : DbcSignal) (raw : Int) (dlc : Nat) (pl : Bytes) : Statement (.sigPack sig raw dlc pl) := by
  simp [Statement, encode]
theorem sigUnpack (sig : DbcSignal) (pl : Bytes) : Statement (.sigUnpack sig pl) := by simp [Statement, encode]
theorem sigEnc (sig : DbcSignal) (phys : Rat) (dlc : Nat) (pl : Bytes) : Statement (.sigEnc sig phys dlc pl) := by
  simp [Statement, encode]
theorem sigDec (sig : DbcSignal) (pl : Bytes) : Statement (.sigDec sig pl) := by simp [Statement, encode]
theorem msgEnc (msg : DbcMessage) (values : ValueMap) : Statement (.msgEnc msg values) := by simp [Statement, encode]
theorem msgDec (msg : DbcMessage) (pl : Bytes) : Statement (.msgDec msg pl) := by simp [Statement, encode]

end Sys2Proof.Laws.EncodedHeader
end

