-- ==== Sys2Proof/Laws/Decode.lean ====
section
/-! SUPPORT. What the decoder reads from a header in the form of R59. -/

namespace Sys2Proof

/-- Whether an operation takes `EXT` (R59): the three BUILDs. -/
def Op.takesExt : Op → Bool
  | .buildD | .buildC | .buildFd => true
  | _ => false

/-- A header of R59 selects the operation it names, with `EXT` set or not where the operation takes it (R60). -/
theorem selectOp_headerWord (op : Op) (ext : Bool) (h : ext = true → op.takesExt = true) :
    selectOp (headerWord op ext) = some op := by
  cases op <;> cases ext <;> first
  | decide
  | exact absurd (h rfl) (by decide)

/-- What the decoder reads from a header of R59 over any body. -/
theorem decode_headerWord (op : Op) (ext : Bool) (h : ext = true → op.takesExt = true) (b : Body) :
    decode ⟨headerWord op ext, b⟩ = .ok (op.withOperands ext b) := by
  simp [decode, selectOp_headerWord op ext h]

/-- If a request decodes, its header is of R59: the operation's pattern and `EXT` (R60, R61). -/
theorem selectOp_some {h : Word} {op : Op} (hs : selectOp h = some op) :
    ∃ row ∈ opTable, row.op = op ∧ row.selects h = true := by
  unfold selectOp at hs
  cases hf : opTable.find? (fun row => row.selects h) with
  | none => rw [hf] at hs; cases hs
  | some row =>
    rw [hf] at hs
    exact ⟨row, List.mem_of_find?_eq_some hf, by simpa using hs, by simpa using List.find?_some hf⟩

end Sys2Proof
end

