-- ==== Sys2Proof/Laws/State.lean ====
section
/-! SUPPORT. One lemma for each field of State and each update of it, so that no proof unfolds a record update. -/

namespace Sys2Proof.Machine

@[simp] theorem answered_cfg (s : State) (r : Response) : (answered s r).cfg = s.cfg := rfl
@[simp] theorem answered_requests (s : State) (r : Response) : (answered s r).requests = s.requests := rfl
@[simp] theorem answered_response (s : State) (r : Response) : (answered s r).response = some r := rfl
@[simp] theorem answered_answered (s : State) (r r' : Response) : answered (answered s r) r' = answered s r' := rfl

@[simp] theorem withFetchWord_cfg (s : State) (n w : Nat) : (s.withFetchWord n w).cfg = s.cfg := rfl
@[simp] theorem withFetchWord_requests (s : State) (n w : Nat) :
    (s.withFetchWord n w).requests = tableRequest n w :: s.requests := rfl
@[simp] theorem withFetchWord_response (s : State) (n w : Nat) : (s.withFetchWord n w).response = s.response := rfl

@[simp] theorem reset_cfg : State.reset.cfg = 0#32 := rfl
@[simp] theorem reset_requests : State.reset.requests = [] := rfl
@[simp] theorem reset_response : State.reset.response = none := rfl

end Sys2Proof.Machine
end

