-- ==== Sys2Proof/Laws/Ops.lean ====
section
/-! SUPPORT. What each named operation of Machine/Ops.lean can do, said once. -/

namespace Sys2Proof.Machine

/-! ## Requests and responses -/

@[simp] theorem respond_eq (r : Result) (s : State) : respond r s = .next (answered s (.ok r)) := rfl
@[simp] theorem raise_eq (e : ErrorKind) (s : State) : raise e s = .next (answered s (.error e)) := rfl
@[simp] theorem deliver_ok (r : Result) (s : State) : deliver (.ok r) s = .next (answered s (.ok r)) := rfl
@[simp] theorem deliver_error (e : ErrorKind) (s : State) : deliver (.error e) s = .next (answered s (.error e)) := rfl

/-- `deliver` always goes on, and changes the response port alone. -/
theorem deliver_next (r : Except ErrorKind Result) (s : State) :
    (∃ v, r = .ok v ∧ deliver r s = .next (answered s (.ok v))) ∨
    (∃ e, r = .error e ∧ deliver r s = .next (answered s (.error e))) := by
  cases r with
  | ok v => exact .inl ⟨v, rfl, rfl⟩
  | error e => exact .inr ⟨e, rfl, rfl⟩

@[simp] theorem withDescriptor_true (k : State → Host.Outcome State Fault Refusal) (s : State) :
    withDescriptor true k s = k s := rfl
@[simp] theorem withDescriptor_false (k : State → Host.Outcome State Fault Refusal) (s : State) :
    withDescriptor false k s = .refused .illFormedDescriptor := rfl

/-- If `withDescriptor` goes on, the descriptor is well formed and the operation went on. -/
theorem withDescriptor_next {ok : Bool} {k : State → Host.Outcome State Fault Refusal} {s t : State}
    (h : withDescriptor ok k s = .next t) : ok = true ∧ k s = .next t := by
  cases ok with
  | true => exact ⟨rfl, h⟩
  | false => simp at h

@[simp] theorem fetch_nil {s : State} (h : s.requests = []) : fetch s = none := by simp [fetch, h]
@[simp] theorem fetch_cons {s : State} {r : Request} {rest : List Request} (h : s.requests = r :: rest) :
    fetch s = some (r, { s with requests := rest }) := by simp [fetch, h]

/-! ## Byte sequences -/

@[simp] theorem zeros_length (n : Nat) : (zeros n).length = n := by simp [zeros]

theorem memRead_length {b : Bytes} {a n : Nat} (h : a + n ≤ b.length) : (memRead b a n).length = n := by
  simp [memRead]; omega

theorem memWrite_length {b v : Bytes} {a : Nat} (h : a + v.length ≤ b.length) :
    (memWrite b a v).length = b.length := by
  simp [memWrite]; omega

/-- Reading what was written at the same place gives it back. -/
theorem memRead_memWrite_same {b v : Bytes} {a : Nat} (h : a + v.length ≤ b.length) :
    memRead (memWrite b a v) a v.length = v := by
  have ha : (b.take a).length = a := by simp; omega
  rw [memRead, memWrite, List.append_assoc, List.drop_append_of_le_length (by omega),
    List.drop_of_length_le (by omega)]
  simp

@[simp] theorem bytesOf_length (order : ByteOrder) (w : Word) : (bytesOf order w).length = 4 := by
  cases order <;> rfl

/-- The identifier word is read back from its own bytes. -/
theorem wordOf_bytesOf (order : ByteOrder) (w : Word) (rest : Bytes) : wordOf order (bytesOf order w ++ rest) = w := by
  cases order <;>
  · simp only [wordOf, bytesOf, wordBe, wordLe, bytesBe, bytesLe, List.cons_append, List.getD_cons_zero,
      List.getD_cons_succ]
    ext i hi
    simp only [BitVec.getElem_append, BitVec.getElem_extractLsb']
    split
    · simp [BitVec.getLsbD_eq_getElem hi]
    · split
      · rw [BitVec.getLsbD_eq_getElem (by omega)]; congr 1; omega
      · split
        · rw [BitVec.getLsbD_eq_getElem (by omega)]; congr 1; omega
        · rw [BitVec.getLsbD_eq_getElem (by omega)]; congr 1; omega

/-! ## Bits of a payload -/

theorem putBit_getLsbD (byte : Byte) {k : Nat} (hk : k < 8) (b : Bool) (j : Nat) :
    (putBit byte k b).getLsbD j = if j = k then b else byte.getLsbD j := by
  have h1 : (1#8 <<< k).getLsbD j = decide (j = k) := by
    simp only [BitVec.getLsbD_shiftLeft, BitVec.getLsbD_one]
    by_cases h : j = k
    · subst h; simp [hk]
    · by_cases hj : j < k
      · simp [hj, h]
      · have : ¬ (j - k = 0) := by omega
        simp [this, h]
  cases b with
  | true =>
    simp only [putBit, if_true, BitVec.getLsbD_or, h1]
    by_cases h : j = k <;> simp [h]
  | false =>
    simp only [putBit, Bool.false_eq_true, if_false, BitVec.getLsbD_and, BitVec.getLsbD_not, h1]
    by_cases h : j = k
    · simp [h]
    · by_cases hj : j < 8
      · simp [h, hj]
      · simp [h, hj, BitVec.getLsbD_of_ge byte j (by omega)]

@[simp] theorem bitWrite_length (pl : Bytes) (p : Nat) (b : Bool) : (bitWrite pl p b).length = pl.length := by
  simp [bitWrite]

theorem getD_modify (l : Bytes) (i j : Nat) (f : Byte → Byte) (hi : i < l.length) :
    (l.modify i f).getD j 0 = if i = j then f (l.getD j 0) else l.getD j 0 := by
  simp only [List.getD_eq_getElem?_getD, List.getElem?_modify]
  by_cases h : i = j
  · subst h; simp [List.getElem?_eq_getElem hi]
  · simp [h]

/-- One bit written reads back as written, and every other position as before (R38). -/
theorem bitRead_bitWrite {pl : Bytes} {p : Nat} (hp : p < 8 * pl.length) (b : Bool) (q : Nat) :
    bitRead (bitWrite pl p b) q = if q = p then b else bitRead pl q := by
  unfold bitRead bitWrite
  rw [getD_modify _ _ _ _ (by omega)]
  by_cases hb : p / 8 = q / 8
  · rw [if_pos hb, putBit_getLsbD _ (by omega)]
    by_cases hq : q = p
    · simp [hq]
    · have : ¬ (q % 8 = p % 8) := by omega
      simp [this, hq]
  · have hq : ¬ q = p := by intro h; exact hb (by rw [h])
    simp [hb, hq]

@[simp] theorem bitRead_zeros (n p : Nat) : bitRead (zeros n) p = false := by
  unfold bitRead zeros
  rw [List.getD_eq_getElem?_getD, List.getElem?_replicate]
  split <;> simp

/-! ## Value maps -/

/-- An entry stored is found again, and every other name as before (R122). -/
theorem valueGet_valueSet (m : ValueMap) (name other : Name) (v : Rat) :
    valueGet (valueSet m name v) other = if name = other then some v else valueGet m other := by
  induction m with
  | nil => simp [valueSet, valueGet]
  | cons kv rest ih =>
    obtain ⟨k, u⟩ := kv
    unfold valueSet
    by_cases hk : k = name
    · subst hk; simp only [if_true, valueGet]; split <;> rfl
    · simp only [hk, if_false, valueGet, ih]
      by_cases ho : k = other
      · subst ho; simp [Ne.symm hk]
      · simp [ho]

theorem mem_keys_valueSet (m : ValueMap) (name k : Name) (v : Rat) :
    k ∈ (valueSet m name v).map Prod.fst ↔ k = name ∨ k ∈ m.map Prod.fst := by
  induction m with
  | nil => simp [valueSet]
  | cons kv rest ih =>
    obtain ⟨k', u⟩ := kv
    unfold valueSet
    by_cases hk : k' = name
    · subst hk; simp
    · simp only [hk, if_false, List.map_cons, List.mem_cons, ih]; tauto

/-- Storing an entry keeps the form of a map: no key twice. -/
theorem valueSet_nodup {m : ValueMap} (h : (m.map Prod.fst).Nodup) (name : Name) (v : Rat) :
    ((valueSet m name v).map Prod.fst).Nodup := by
  induction m with
  | nil => simp [valueSet]
  | cons kv rest ih =>
    obtain ⟨k, u⟩ := kv
    simp only [List.map_cons, List.nodup_cons] at h
    unfold valueSet
    by_cases hk : k = name
    · simpa [hk] using h
    · simp only [hk, if_false, List.map_cons, List.nodup_cons, mem_keys_valueSet]
      exact ⟨by tauto, ih h.2⟩

/-- A name is in the map's domain exactly when an entry has it. -/
theorem valueGet_ne_none (m : ValueMap) (name : Name) : valueGet m name ≠ none ↔ name ∈ m.map Prod.fst := by
  induction m with
  | nil => simp [valueGet]
  | cons kv rest ih =>
    obtain ⟨k, u⟩ := kv
    simp only [valueGet, List.map_cons, List.mem_cons]
    by_cases hk : k = name
    · simp [hk]
    · simp only [hk, if_false, ih]
      constructor
      · exact .inr
      · rintro (h | h)
        · exact absurd h.symm hk
        · exact h

end Sys2Proof.Machine
end

