-- ==== Sys2Proof/Laws/Frame.lean ====
section
/-! SUPPORT. What the frame codec's functions do, said once: the layout BUILD writes and the fields PARSE reads, and how
bit vectors and the numbers of the spec's tables agree. -/

namespace Sys2Proof.Machine

/-- The largest data length of a form (R70). -/
abbrev formLimit (fd : Bool) : Nat := if fd then 64 else 8

/-- BUILD refuses too much data (R70). -/
theorem build_error {data : Bytes} {fd : Bool} (h : formLimit fd < data.length) (id : Word) (ext : Bool)
    (order : ByteOrder) : build id data ext fd order = .error .invalidLength := by
  cases fd <;> simp_all [build, formLimit]

theorem zeros_split {n k : Nat} (h : k ≤ n) : zeros n = zeros k ++ zeros (n - k) := by
  simp [zeros, List.replicate_append_replicate]; omega

/-- What BUILD writes, byte by byte (R50, R51, R70). -/
theorem build_ok {data : Bytes} {fd : Bool} (h : data.length ≤ formLimit fd) (id : Word) (ext : Bool)
    (order : ByteOrder) : build id data ext fd order =
      .ok (bytesOf order (identifierWord id ext) ++ [BitVec.ofNat 8 data.length, 0, 0, 0] ++ data ++
        zeros (formLimit fd - data.length)) := by
  have hz : zeros (if fd then Config.fdFrameSize else Config.classicFrameSize) =
      zeros 4 ++ (zeros 4 ++ zeros (formLimit fd)) := by cases fd <;> rfl
  have hc : ((!fd && decide (Config.classicMaxData < data.length)) || (fd && decide (Config.fdMaxData < data.length)))
      = false := by cases fd <;> simp_all [formLimit]
  have h1 : memWrite (zeros 4 ++ (zeros 4 ++ zeros (formLimit fd))) 0 (bytesOf order (identifierWord id ext)) =
      bytesOf order (identifierWord id ext) ++ (zeros 4 ++ zeros (formLimit fd)) := by
    simp [memWrite, zeros]
  unfold build
  rw [hc, hz]
  simp only [Bool.false_eq_true, if_false, h1]
  generalize hw : bytesOf order (identifierWord id ext) = w
  have hl : w.length = 4 := by rw [← hw]; simp
  obtain ⟨a, b, c, d, rfl⟩ : ∃ a b c d, w = [a, b, c, d] := by
    match w, hl with
    | [a, b, c, d], _ => exact ⟨a, b, c, d, rfl⟩
  have h4 : zeros 4 = [0, 0, 0, 0] := rfl
  simp only [h4]
  congr 1
  have hd : ∀ z : Bytes, List.drop (Config.headerSize + data.length)
      (a :: b :: c :: d :: BitVec.ofNat 8 data.length :: 0#8 :: 0#8 :: 0#8 :: z) = z.drop data.length := by
    intro z; rw [show Config.headerSize + data.length = data.length + 8 from Nat.add_comm _ _]; rfl
  rw [zeros_split h]
  simp [memWrite, zeros, hd]

/-- PARSE refuses a short buffer (R74). -/
theorem parse_error {buf : Bytes} (h : buf.length < 8) (choice : FormChoice) (order : ByteOrder) :
    parse buf choice order = .error .incomplete := by
  simp [parse, Config.minFrameSize, h]

theorem memRead_four_word (order : ByteOrder) {buf : Bytes} (h : 4 ≤ buf.length) :
    wordOf order (memRead buf 0 4) = wordOf order buf := by
  match buf, h with
  | a :: b :: c :: d :: rest, _ => cases order <;> rfl

theorem memRead_one_getD (buf : Bytes) (k : Nat) : (memRead buf k 1).getD 0 0 = buf.getD k 0 := by
  simp only [memRead, List.getD_eq_getElem?_getD]
  congr 1
  simp

theorem wordBe_toNat (b : Bytes) : (wordBe b).toNat = idValue false b := by
  simp only [wordBe, idValue, BitVec.toNat_append, Bool.false_eq_true, if_false]
  have h := fun k => (b.getD k 0).isLt
  have h0 := h 0; have h1 := h 1; have h2 := h 2; have h3 := h 3
  generalize (b.getD 0 0).toNat = x0 at *
  generalize (b.getD 1 0).toNat = x1 at *
  generalize (b.getD 2 0).toNat = x2 at *
  generalize (b.getD 3 0).toNat = x3 at *
  rw [← Nat.shiftLeft_add_eq_or_of_lt h1, ← Nat.shiftLeft_add_eq_or_of_lt h2, ← Nat.shiftLeft_add_eq_or_of_lt h3]
  simp only [Nat.shiftLeft_eq]
  omega

theorem wordLe_toNat (b : Bytes) : (wordLe b).toNat = idValue true b := by
  simp only [wordLe, idValue, BitVec.toNat_append, if_true]
  have h := fun k => (b.getD k 0).isLt
  have h0 := h 0; have h1 := h 1; have h2 := h 2; have h3 := h 3
  generalize (b.getD 0 0).toNat = x0 at *
  generalize (b.getD 1 0).toNat = x1 at *
  generalize (b.getD 2 0).toNat = x2 at *
  generalize (b.getD 3 0).toNat = x3 at *
  rw [← Nat.shiftLeft_add_eq_or_of_lt h2, ← Nat.shiftLeft_add_eq_or_of_lt h1, ← Nat.shiftLeft_add_eq_or_of_lt h0]
  simp only [Nat.shiftLeft_eq]
  omega

/-- The identifier word's value is that of its four bytes (R32, R33). -/
theorem wordOf_toNat (cfg : Word) (b : Bytes) : (wordOf (cfgOrder cfg) b).toNat = idValue (cfg.getLsbD 0) b := by
  unfold cfgOrder
  cases cfg.getLsbD 0
  · exact wordBe_toNat b
  · exact wordLe_toNat b

theorem and_idMask_toNat (w : Word) : (w &&& Config.idMask).toNat = w.toNat % 2 ^ 29 := by
  rw [BitVec.toNat_and, show (Config.idMask).toNat = 2 ^ 29 - 1 from rfl, Nat.and_two_pow_sub_one_eq_mod]

theorem and_effFlag_ne_zero (w : Word) : ((w &&& Config.effFlag) != 0#32) = decide (2 ^ 31 ≤ w.toNat) := by
  have h : w &&& Config.effFlag = if w.getLsbD 31 then Config.effFlag else 0#32 := by
    ext i hi
    have : Config.effFlag = BitVec.twoPow 32 31 := rfl
    rw [this, BitVec.getElem_and, BitVec.getElem_twoPow]
    split
    · rename_i h31
      by_cases hi31 : i = 31
      · subst hi31; simpa [BitVec.getLsbD_eq_getElem] using h31
      · simp [hi31]
    · rename_i h31
      by_cases hi31 : i = 31
      · subst hi31; simpa [BitVec.getLsbD_eq_getElem] using h31
      · simp [hi31]
  have hmsb : w.getLsbD 31 = decide (2 ^ 31 ≤ w.toNat) := BitVec.msb_eq_decide w
  rw [h, ← hmsb]
  cases w.getLsbD 31 <;> rfl

theorem parsedDlc_eq (fd : Bool) (b : Byte) : parsedDlc fd b = if fd then b.toNat else b.toNat % 16 := by
  cases fd
  · simp only [parsedDlc, Bool.false_eq_true, if_false, BitVec.toNat_and]
    rw [show (Config.classicDlcMask).toNat = 2 ^ 4 - 1 from rfl, Nat.and_two_pow_sub_one_eq_mod]
  · simp [parsedDlc]

/-- What PARSE answers, in the numbers of the spec's tables (R52, R53, R74). -/
theorem parse_ok {buf : Bytes} (h : 8 ≤ buf.length) (choice : FormChoice) (cfg : Word) :
    parse buf choice (cfgOrder cfg) = .ok (wireParse (cfg.getLsbD 0) (usesFd choice buf.length) buf) := by
  have h8 : ¬ buf.length < Config.minFrameSize := by simp [Config.minFrameSize]; omega
  unfold parse
  rw [if_neg h8]
  simp only [memRead_four_word _ (show 4 ≤ buf.length by omega), memRead_one_getD, and_idMask_toNat,
    and_effFlag_ne_zero, wordOf_toNat, parsedDlc_eq, wireParse]
  rfl

theorem identifierWord_toNat (id : Word) (ext : Bool) : (identifierWord id ext).toNat = builtWord ext id.toNat := by
  have h := and_idMask_toNat id
  cases ext
  · simp [identifierWord, builtWord, h]
  · simp only [identifierWord, builtWord, if_true, BitVec.toNat_or, h]
    have hlt : id.toNat % 2 ^ 29 < 2 ^ 31 := by have := Nat.mod_lt id.toNat (show 0 < 2 ^ 29 by norm_num); omega
    rw [show (Config.effFlag).toNat = 1 <<< 31 from rfl, Nat.or_comm, ← Nat.shiftLeft_add_eq_or_of_lt hlt]
    omega

theorem extractLsb'_eq_ofNat (w : Word) (k : Nat) : w.extractLsb' k 8 = BitVec.ofNat 8 (w.toNat / 2 ^ k) := by
  apply BitVec.eq_of_toNat_eq
  simp [BitVec.extractLsb'_toNat, Nat.shiftRight_eq_div_pow]

theorem bytesBe_eq (w : Word) : bytesBe w = idBytes false w.toNat := by
  simp [bytesBe, idBytes, extractLsb'_eq_ofNat]

theorem bytesLe_eq (w : Word) : bytesLe w = idBytes true w.toNat := by
  simp [bytesLe, idBytes, extractLsb'_eq_ofNat]

/-- The identifier word's bytes are its base-256 digits in the configured order (R32, R33). -/
theorem bytesOf_eq (cfg w : Word) : bytesOf (cfgOrder cfg) w = idBytes (cfg.getLsbD 0) w.toNat := by
  unfold cfgOrder
  cases cfg.getLsbD 0
  · exact bytesBe_eq w
  · exact bytesLe_eq w

/-- What BUILD answers, in the numbers of the spec's tables (R50, R51). -/
theorem build_wireFrame {data : Bytes} {fd : Bool} (h : data.length ≤ formLimit fd) (id : Word) (ext : Bool)
    (cfg : Word) :
    build id data ext fd (cfgOrder cfg) = .ok (wireFrame (cfg.getLsbD 0) ext id.toNat data (formLimit fd)) := by
  rw [build_ok h, bytesOf_eq, identifierWord_toNat]; rfl

@[simp] theorem idBytes_length (little : Bool) (w : Nat) : (idBytes little w).length = 4 := by
  cases little <;> rfl

@[simp] theorem wireFrame_length {little ext : Bool} {id : Nat} {data : Bytes} {field : Nat}
    (h : data.length ≤ field) : (wireFrame little ext id data field).length = 8 + field := by
  simp [wireFrame]; omega

/-- The digits of a 32-bit number make that number again, read in the order they were written. -/
theorem idValue_idBytes (little : Bool) {w : Nat} (hw : w < 2 ^ 32) (rest : Bytes) :
    idValue little (idBytes little w ++ rest) = w := by
  cases little <;>
  · simp only [idValue, idBytes, Bool.false_eq_true, if_false, if_true, List.reverse_cons, List.reverse_nil,
      List.nil_append, List.cons_append, List.getD_cons_zero, List.getD_cons_succ, BitVec.toNat_ofNat]
    omega

/-- Read in the other order they make the number with its bytes reversed (R81). -/
theorem idValue_idBytes_swapped {little little' : Bool} (h : little' ≠ little) (w : Nat)
    (rest : Bytes) : idValue little' (idBytes little w ++ rest) = swapBytes w := by
  cases little <;> cases little' <;> first
  | exact absurd rfl h
  | simp only [idValue, idBytes, swapBytes, Bool.false_eq_true, if_false, if_true, List.reverse_cons, List.reverse_nil,
      List.nil_append, List.cons_append, List.getD_cons_zero, List.getD_cons_succ, BitVec.toNat_ofNat]

theorem builtWord_lt (ext : Bool) (id : Nat) : builtWord ext id < 2 ^ 32 := by
  unfold builtWord; split <;> omega

end Sys2Proof.Machine
end

