-- ==== Sys2Proof/Laws/Signal.lean ====
section
/-! SUPPORT. What the operations of the signal codec do, said once: the checks as propositions, the two loops bit by bit,
and the composites. -/

namespace Sys2Proof.Machine

/-! ## The checks -/

theorem insideBytes_iff (n : Nat) (p : Int) : insideBytes n p = true ↔ 0 ≤ p ∧ p < 8 * (n : Int) := by
  simp [insideBytes]

theorem footprintInside_iff (sig : DbcSignal) (n : Nat) :
    footprintInside sig n = true ↔ ∀ i < sig.length, 0 ≤ bitPos sig i ∧ bitPos sig i < 8 * (n : Int) := by
  simp [footprintInside, insideBytes_iff]

theorem boundsOk_iff (sig : DbcSignal) (n : Nat) : boundsOk sig n = true ↔ fitsIn sig n := by
  simp [boundsOk, fitsIn, footprintInside_iff]

theorem rangeOk_iff (sig : DbcSignal) (raw : Int) : rangeOk sig raw = true ↔ rawFits sig raw := by
  unfold rangeOk rawFits
  cases sig.sign <;> simp

/-- `bit_pos` is injective (R107). -/
theorem bitPos_inj {sig : DbcSignal} {i j : Nat} (h : bitPos sig i = bitPos sig j) : i = j := by
  unfold bitPos at h
  cases hb : sig.endianness <;> simp only [hb] at h <;> omega

/-! ## The two loops -/

@[simp] theorem putBits_length (sig : DbcSignal) (field n : Nat) (pl : Bytes) :
    (putBits sig field n pl).length = pl.length := by
  induction n with
  | zero => simp [putBits]
  | succ n ih => simpa [putBits, List.range_succ] using ih

theorem putBits_succ (sig : DbcSignal) (field n : Nat) (pl : Bytes) :
    putBits sig field (n + 1) pl = bitWrite (putBits sig field n pl) (bitPos sig n).toNat (field.testBit n) := by
  simp [putBits, List.range_succ]

/-- The writing loop, position by position: each position of the field holds its bit, every other one what it held. -/
theorem bitRead_putBits {sig : DbcSignal} {n : Nat} (field : Nat) (pl : Bytes)
    (hin : ∀ i < n, 0 ≤ bitPos sig i ∧ bitPos sig i < 8 * (pl.length : Int)) :
    (∀ i < n, bitRead (putBits sig field n pl) (bitPos sig i).toNat = field.testBit i) ∧
    ∀ q : Nat, (∀ i < n, bitPos sig i ≠ (q : Int)) → bitRead (putBits sig field n pl) q = bitRead pl q := by
  induction n with
  | zero => simp [putBits]
  | succ n ih =>
    obtain ⟨ih1, ih2⟩ := ih fun i hi => hin i (by omega)
    have hn := hin n (by omega)
    have hlt : (bitPos sig n).toNat < 8 * (putBits sig field n pl).length := by
      rw [putBits_length]; omega
    constructor
    · intro i hi
      rw [putBits_succ, bitRead_bitWrite hlt]
      by_cases h : i = n
      · simp [h]
      · have hi' := hin i hi
        have : ¬ (bitPos sig i).toNat = (bitPos sig n).toNat := by
          intro he
          exact h (bitPos_inj (sig := sig) (by omega))
        rw [if_neg this]
        exact ih1 i (by omega)
    · intro q hq
      rw [putBits_succ, bitRead_bitWrite hlt]
      have : ¬ q = (bitPos sig n).toNat := by
        intro he
        exact hq n (by omega) (by omega)
      rw [if_neg this]
      exact ih2 q fun i hi => hq i (by omega)

theorem getBits_succ (sig : DbcSignal) (n : Nat) (pl : Bytes) :
    getBits sig (n + 1) pl = getBits sig n pl ||| (bitRead pl (bitPos sig n).toNat).toNat <<< n := by
  simp [getBits, List.range_succ]

/-- The gathering loop, bit by bit. -/
theorem getBits_testBit (sig : DbcSignal) (n : Nat) (pl : Bytes) (i : Nat) :
    (getBits sig n pl).testBit i = (decide (i < n) && bitRead pl (bitPos sig i).toNat) := by
  induction n with
  | zero => simp [getBits]
  | succ n ih =>
    rw [getBits_succ, Nat.testBit_or, ih, Nat.testBit_shiftLeft]
    by_cases h : i < n
    · have h' : ¬ i ≥ n := by omega
      simp [h, h', Nat.lt_succ_of_lt h]
    · by_cases he : i = n
      · subst he
        cases bitRead pl (bitPos sig i).toNat <;> simp
      · have h1 : ¬ i < n + 1 := by omega
        have h2 : i - n ≠ 0 := by omega
        have h3 : (bitRead pl (bitPos sig n).toNat).toNat.testBit (i - n) = false := by
          apply Nat.testBit_lt_two_pow
          calc (bitRead pl (bitPos sig n).toNat).toNat ≤ 1 := Bool.toNat_le _
            _ < 2 ^ (i - n) := Nat.one_lt_two_pow h2
        simp [h, h1, h3]

theorem getBits_lt (sig : DbcSignal) (n : Nat) (pl : Bytes) : getBits sig n pl < 2 ^ n := by
  apply Nat.lt_pow_two_of_testBit
  intro i hi
  rw [getBits_testBit]
  simp; omega

/-! ## Two's complement -/

/-- Bit `i` of an integer is bit `i` of it modulo any larger power of two. -/
theorem rawBit_emod (raw : Int) {i n : Nat} (h : i < n) : rawBit raw i = (raw % 2 ^ n).toNat.testBit i := by
  have hpos : (0 : Int) < 2 ^ n := by positivity
  have hm : 0 ≤ raw % 2 ^ n := Int.emod_nonneg _ (by omega)
  rw [Nat.testBit_eq_decide_div_mod_eq, rawBit]
  congr 1
  rw [eq_iff_iff]
  have hcast : (((raw % 2 ^ n).toNat / 2 ^ i % 2 : Nat) : Int) = raw % 2 ^ n / 2 ^ i % 2 := by
    push_cast; rw [Int.toNat_of_nonneg hm]
  have hsplit : raw / 2 ^ i % 2 = raw % 2 ^ n / 2 ^ i % 2 := by
    obtain ⟨d, rfl⟩ := Nat.exists_eq_add_of_lt h
    have he : raw = raw % 2 ^ (i + d + 1) + 2 ^ i * (2 * (2 ^ d * (raw / 2 ^ (i + d + 1)))) := by
      have := Int.emod_add_mul_ediv raw (2 ^ (i + d + 1))
      rw [← this]
      rw [this]
      nth_rewrite 1 [← this]
      ring
    have hi : (2 : Int) ^ i ≠ 0 := by positivity
    generalize raw % 2 ^ (i + d + 1) = m at *
    rw [he, Int.add_mul_ediv_left _ _ hi]
    omega
  rw [hsplit]
  omega

/-- For a raw value in range the field is the value modulo `2^length` (R94, R111). -/
theorem toField_eq {sig : DbcSignal} {raw : Int} (h : rawFits sig raw) :
    toField sig raw = (raw % 2 ^ sig.length).toNat := by
  unfold toField
  simp only [Nat.and_two_pow_sub_one_eq_mod]
  have hpos : (0 : Int) < 2 ^ sig.length := by positivity
  have key : ∀ x : Int, 0 ≤ x → x.toNat % 2 ^ sig.length = (x % 2 ^ sig.length).toNat := by
    intro x hx
    rw [Int.toNat_emod hx hpos.le]
    congr 1
  by_cases hs : sig.sign = .signed ∧ raw < 0
  · rw [if_pos hs]
    have hr := h.2 hs.1
    have hle : (2 : Int) ^ (sig.length - 1) ≤ 2 ^ sig.length :=
      pow_le_pow_right₀ (by norm_num) (by omega)
    rw [key _ (by omega)]
    simp
  · rw [if_neg hs]
    have h0 : 0 ≤ raw := by
      cases hsign : sig.sign with
      | unsigned => exact h.1 hsign
      | signed => by_contra hc; exact hs ⟨hsign, by omega⟩
    exact key raw h0

/-- Bit `i` of the field stored for a raw value in range is bit `i` of the value. -/
theorem toField_testBit {sig : DbcSignal} {raw : Int} (h : rawFits sig raw) {i : Nat} (hi : i < sig.length) :
    (toField sig raw).testBit i = rawBit raw i := by
  rw [toField_eq h, rawBit_emod raw hi]

/-! ## The composites -/

theorem fitsIn_mono {sig : DbcSignal} {n m : Nat} (h : fitsIn sig n) (hm : n ≤ m) : fitsIn sig m :=
  ⟨h.1, fun i hi => ⟨(h.2 i hi).1, by have := (h.2 i hi).2; omega⟩⟩

/-- `write_bits` where every position is inside: the field is in the payload and nothing else moved (R97). -/
theorem writeBits_ok {sig : DbcSignal} (field : Nat) {pl : Bytes} (h : fitsIn sig pl.length) :
    ∃ out, writeBits sig field pl = .ok out ∧ out.length = pl.length ∧
      (∀ i < sig.length, bitRead out (bitPos sig i).toNat = field.testBit i) ∧
      ∀ q : Nat, ¬ touches sig (q : Int) → bitRead out q = bitRead pl q := by
  have hin := bitRead_putBits field pl h.2
  refine ⟨putBits sig field sig.length pl, ?_, by simp, hin.1, fun q hq => hin.2 q fun i hi he => hq ⟨i, hi, he⟩⟩
  rw [writeBits, if_pos ((footprintInside_iff _ _).2 h.2)]

/-- `write_bits` with a position outside the payload (R97). -/
theorem writeBits_error {sig : DbcSignal} (field : Nat) {pl : Bytes} (h0 : 0 ≤ sig.startBit)
    (h : ¬ fitsIn sig pl.length) : writeBits sig field pl = .error .bitPositionOutOfBounds := by
  rw [writeBits, if_neg]
  rw [footprintInside_iff]
  exact fun hc => h ⟨h0, hc⟩

/-- `pack_raw`, each way it can end (R98). -/
theorem packRaw_cases (sig : DbcSignal) (raw : Int) (dlc : Nat) (pl : Bytes) :
    (¬ rawFits sig raw ∧ packRaw sig raw dlc pl = .error .signalOutOfRange) ∨
    (rawFits sig raw ∧ ¬ fitsIn sig dlc ∧ packRaw sig raw dlc pl = .error .signalExceedsMessage) ∨
    (rawFits sig raw ∧ fitsIn sig dlc ∧ ¬ fitsIn sig pl.length ∧
      packRaw sig raw dlc pl = .error .bitPositionOutOfBounds) ∨
    (rawFits sig raw ∧ fitsIn sig dlc ∧ fitsIn sig pl.length ∧
      ∃ out, packRaw sig raw dlc pl = .ok out ∧ packedInto sig raw pl out) := by
  by_cases hr : rawFits sig raw
  · by_cases hb : fitsIn sig dlc
    · have hp : packRaw sig raw dlc pl = writeBits sig (toField sig raw) pl := by
        simp [packRaw, (rangeOk_iff _ _).2 hr, (boundsOk_iff _ _).2 hb]
      by_cases hf : fitsIn sig pl.length
      · obtain ⟨out, ho, hlen, hbits, hrest⟩ := writeBits_ok (toField sig raw) hf
        refine .inr (.inr (.inr ⟨hr, hb, hf, out, hp.trans ho, hlen, ?_, fun p _ hp => hrest p hp⟩))
        intro i hi
        rw [hbits i hi, toField_testBit hr hi]
      · exact .inr (.inr (.inl ⟨hr, hb, hf, hp.trans (writeBits_error _ hb.1 hf)⟩))
    · have h1 : rangeOk sig raw = true := (rangeOk_iff _ _).2 hr
      have h2 : boundsOk sig dlc = false := by
        rw [Bool.eq_false_iff]; exact fun hc => hb ((boundsOk_iff _ _).1 hc)
      exact .inr (.inl ⟨hr, hb, by simp [packRaw, h1, h2]⟩)
  · have h1 : rangeOk sig raw = false := by
      rw [Bool.eq_false_iff]; exact fun hc => hr ((rangeOk_iff _ _).1 hc)
    exact .inl ⟨hr, by simp [packRaw, h1]⟩

/-- The value `from_field` makes of `length` bits has those bits and lies in the signal's range (R100, R101). -/
theorem fromField_spec {sig : DbcSignal} {field : Nat} (hl : 1 ≤ sig.length) (hf : field < 2 ^ sig.length) :
    (∀ i < sig.length, rawBit (fromField sig field) i = field.testBit i) ∧
    (sig.sign = .unsigned → 0 ≤ fromField sig field ∧ fromField sig field < 2 ^ sig.length) ∧
    (sig.sign = .signed → -(2 ^ (sig.length - 1)) ≤ fromField sig field ∧
      fromField sig field ≤ 2 ^ (sig.length - 1) - 1) := by
  have hfi : ((field : Int)) < 2 ^ sig.length := by exact_mod_cast hf
  have hmod : fromField sig field % 2 ^ sig.length = (field : Int) := by
    unfold fromField
    split
    · rw [Int.sub_emod_right]
      exact Int.emod_eq_of_lt (by omega) hfi
    · exact Int.emod_eq_of_lt (by omega) hfi
  have hsucc : (2 : Int) ^ sig.length = 2 * 2 ^ (sig.length - 1) := by
    obtain ⟨n, hn⟩ := Nat.exists_eq_add_of_le hl
    rw [hn, show 1 + n - 1 = n by omega, Nat.add_comm, pow_succ]; ring
  have htop : field.testBit (sig.length - 1) = decide (2 ^ (sig.length - 1) ≤ field) := by
    obtain ⟨n, hn⟩ := Nat.exists_eq_add_of_le hl
    have hf' : field < 2 ^ n * 2 := by rw [hn, Nat.add_comm, pow_succ] at hf; exact hf
    rw [hn, show 1 + n - 1 = n by omega, Nat.testBit_eq_decide_div_mod_eq]
    have h2 : field / 2 ^ n < 2 := by rw [Nat.div_lt_iff_lt_mul (by positivity)]; omega
    have h3 : 1 ≤ field / 2 ^ n ↔ 2 ^ n ≤ field := by
      rw [Nat.le_div_iff_mul_le (by positivity), Nat.one_mul]
    congr 1
    rw [eq_iff_iff, ← h3]
    generalize field / 2 ^ n = q at h2
    omega
  refine ⟨?_, ?_, ?_⟩
  · intro i hi
    rw [rawBit_emod _ hi, hmod]; simp
  · intro hs
    have : fromField sig field = field := by simp [fromField, hs]
    rw [this]; exact ⟨by omega, hfi⟩
  · intro hs
    unfold fromField
    simp only [hs, true_and, htop, decide_eq_true_eq]
    split
    · rename_i h
      have : (2 : Int) ^ (sig.length - 1) ≤ field := by exact_mod_cast h
      omega
    · rename_i h
      have : (field : Int) < 2 ^ (sig.length - 1) := by exact_mod_cast (Nat.lt_of_not_le h)
      omega

/-- `unpack_raw`, each way it can end (R99, R100). -/
theorem unpackRaw_cases (sig : DbcSignal) (pl : Bytes) (hl : 1 ≤ sig.length) :
    (¬ fitsIn sig pl.length ∧ unpackRaw sig pl = .error .bitPositionOutOfBounds) ∨
    (fitsIn sig pl.length ∧ ∃ v, unpackRaw sig pl = .ok v ∧ holdsRaw sig pl v) := by
  by_cases hf : fitsIn sig pl.length
  · refine .inr ⟨hf, fromField sig (getBits sig sig.length pl), ?_, ?_⟩
    · have h0 : ¬ sig.startBit < 0 := by have := hf.1; omega
      simp [unpackRaw, readBits, h0, (footprintInside_iff _ _).2 hf.2, Except.map]
    · obtain ⟨h1, h2, h3⟩ := fromField_spec hl (getBits_lt sig sig.length pl)
      refine ⟨fun i hi => ?_, h2, h3⟩
      rw [h1 i hi, getBits_testBit]; simp [hi]
  · refine .inl ⟨hf, ?_⟩
    by_cases h0 : sig.startBit < 0
    · simp [unpackRaw, readBits, h0, Except.map]
    · have : footprintInside sig pl.length = false := by
        rw [Bool.eq_false_iff, Ne, footprintInside_iff]
        exact fun hc => hf ⟨by omega, hc⟩
      simp [unpackRaw, readBits, h0, this, Except.map]

/-- Two integers in a signal's range with the same bits are one: a payload holds one value for a signal. -/
theorem holdsRaw_unique {sig : DbcSignal} {pl : Bytes} {v w : Int} (hl : 1 ≤ sig.length)
    (hv : holdsRaw sig pl v) (hw : holdsRaw sig pl w) : v = w := by
  have hpos : (0 : Int) < 2 ^ sig.length := by positivity
  have hmod : v % 2 ^ sig.length = w % 2 ^ sig.length := by
    have hv0 := Int.emod_nonneg v (show (2 : Int) ^ sig.length ≠ 0 by omega)
    have hw0 := Int.emod_nonneg w (show (2 : Int) ^ sig.length ≠ 0 by omega)
    have h : (v % 2 ^ sig.length).toNat = (w % 2 ^ sig.length).toNat := by
      apply Nat.eq_of_testBit_eq
      intro i
      by_cases hi : i < sig.length
      · rw [← rawBit_emod v hi, ← rawBit_emod w hi, hv.1 i hi, hw.1 i hi]
      · have hle : (2 : Nat) ^ sig.length ≤ 2 ^ i := Nat.pow_le_pow_right (by omega) (by omega)
        have hb : ∀ x : Int, (x % 2 ^ sig.length).toNat < 2 ^ i := by
          intro x
          have h1 := Int.emod_lt_of_pos x hpos
          have h2 := Int.emod_nonneg x (show (2 : Int) ^ sig.length ≠ 0 by omega)
          have h3 : ((2 ^ sig.length : Nat) : Int) = 2 ^ sig.length := by push_cast; rfl
          omega
        rw [Nat.testBit_lt_two_pow (hb v), Nat.testBit_lt_two_pow (hb w)]
    omega
  have hsucc : (2 : Int) ^ sig.length = 2 * 2 ^ (sig.length - 1) := by
    obtain ⟨n, hn⟩ := Nat.exists_eq_add_of_le hl
    rw [hn, show 1 + n - 1 = n by omega, Nat.add_comm, pow_succ]; ring
  have hdvd : (2 : Int) ^ sig.length ∣ v - w := Int.dvd_of_emod_eq_zero (Int.emod_emod_of_dvd _ dvd_rfl ▸ by
    rw [Int.sub_emod, hmod]; simp)
  have habs : |v - w| < 2 ^ sig.length := by
    rw [abs_lt]
    cases hs : sig.sign with
    | unsigned => have := hv.2.1 hs; have := hw.2.1 hs; constructor <;> omega
    | signed => have := hv.2.2 hs; have := hw.2.2 hs; constructor <;> omega
  have := Int.eq_zero_of_abs_lt_dvd hdvd habs
  omega

end Sys2Proof.Machine
end

