-- ==== Sys2Proof/Laws/Message.lean ====
section
/-! SUPPORT. The two loops of the message codec, one signal at a time. -/

namespace Sys2Proof.Machine

/-- A signal with no value is skipped (R120). -/
theorem encodeSignals_skip {values : ValueMap} {sig : DbcSignal} (h : valueGet values sig.name = none) (dlc : Nat)
    (rest : List DbcSignal) (pl : Bytes) :
    encodeSignals dlc values (sig :: rest) pl = encodeSignals dlc values rest pl := by
  simp [encodeSignals, h]

/-- A provided signal whose encode fails ends the loop with its error (R120, D27). -/
theorem encodeSignals_error {values : ValueMap} {sig : DbcSignal} {phys : Rat} {dlc : Nat} {pl : Bytes} {e : ErrorKind}
    (h : valueGet values sig.name = some phys) (he : packRaw sig (scaleToRaw sig phys) dlc pl = .error e)
    (rest : List DbcSignal) : encodeSignals dlc values (sig :: rest) pl = .error e := by
  simp [encodeSignals, h, he]

/-- A provided signal that is packed hands the payload on (R120). -/
theorem encodeSignals_ok {values : ValueMap} {sig : DbcSignal} {phys : Rat} {dlc : Nat} {pl pl' : Bytes}
    (h : valueGet values sig.name = some phys) (ho : packRaw sig (scaleToRaw sig phys) dlc pl = .ok pl')
    (rest : List DbcSignal) : encodeSignals dlc values (sig :: rest) pl = encodeSignals dlc values rest pl' := by
  simp [encodeSignals, h, ho]

/-- A payload of `dlc` bytes never makes `pack_raw` run out of it (R98, R120). -/
theorem packRaw_own_dlc {sig : DbcSignal} {raw : Int} {pl : Bytes} {e : ErrorKind}
    (h : packRaw sig raw pl.length pl = .error e) : e = .signalOutOfRange ∨ e = .signalExceedsMessage := by
  rcases packRaw_cases sig raw pl.length pl with ⟨_, h'⟩ | ⟨_, _, h'⟩ | ⟨_, hb, hf, _⟩ | ⟨_, _, _, out, h', _⟩
  · rw [h'] at h; exact .inl (Except.error.inj h).symm
  · rw [h'] at h; exact .inr (Except.error.inj h).symm
  · exact absurd hb hf
  · rw [h'] at h; cases h

/-- `pack_raw` keeps the length of the payload (R21). -/
theorem packRaw_length {sig : DbcSignal} {raw : Int} {dlc : Nat} {pl out : Bytes}
    (h : packRaw sig raw dlc pl = .ok out) : out.length = pl.length := by
  rcases packRaw_cases sig raw dlc pl with ⟨_, h'⟩ | ⟨_, _, h'⟩ | ⟨_, _, _, h'⟩ | ⟨_, _, _, out', h', hp⟩ <;>
    rw [h'] at h <;> cases h
  exact hp.1

/-- The loop of MSG.ENC keeps the length of the payload. -/
theorem encodeSignals_length {values : ValueMap} {dlc : Nat} {sigs : List DbcSignal} {pl out : Bytes}
    (h : encodeSignals dlc values sigs pl = .ok out) : out.length = pl.length := by
  induction sigs generalizing pl with
  | nil => simp [encodeSignals] at h; rw [h]
  | cons sig rest ih =>
    cases hv : valueGet values sig.name with
    | none => rw [encodeSignals_skip hv] at h; exact ih h
    | some phys =>
      cases hp : packRaw sig (scaleToRaw sig phys) dlc pl with
      | error e => rw [encodeSignals_error hv hp] at h; cases h
      | ok pl' => rw [encodeSignals_ok hv hp] at h; rw [ih h, packRaw_length hp]

/-- A signal that does not fit ends the loop of MSG.DEC with its error (R122, D27). -/
theorem decodeSignals_error {sig : DbcSignal} {pl : Bytes} {e : ErrorKind} (h : unpackRaw sig pl = .error e)
    (rest : List DbcSignal) (m : ValueMap) : decodeSignals pl (sig :: rest) m = .error e := by
  simp [decodeSignals, h]

/-- A signal that is read hands the map on with its entry stored (R122). -/
theorem decodeSignals_ok {sig : DbcSignal} {pl : Bytes} {v : Int} (h : unpackRaw sig pl = .ok v)
    (rest : List DbcSignal) (m : ValueMap) :
    decodeSignals pl (sig :: rest) m = decodeSignals pl rest (valueSet m sig.name (scaleToPhys sig v)) := by
  simp [decodeSignals, h]

/-- The loop of MSG.DEC keeps the form of a map. -/
theorem decodeSignals_nodup {pl : Bytes} {sigs : List DbcSignal} {m out : ValueMap} (hm : (m.map Prod.fst).Nodup)
    (h : decodeSignals pl sigs m = .ok out) : (out.map Prod.fst).Nodup := by
  induction sigs generalizing m with
  | nil => simp [decodeSignals] at h; rw [← h]; exact hm
  | cons sig rest ih =>
    cases hu : unpackRaw sig pl with
    | error e => rw [decodeSignals_error hu] at h; cases h
    | ok v => rw [decodeSignals_ok hu] at h; exact ih (valueSet_nodup hm _ _) h

end Sys2Proof.Machine
end

