-- ==== Sys2Proof/Laws/Exec.lean ====
section
/-! SUPPORT. What a meaning can do, said once for all fourteen: it answers by `deliver`, refuses an ill-formed descriptor,
and only CFG.WR writes `CFG`. -/

namespace Sys2Proof.Machine

/-- The `CFG` an operation leaves (R130). -/
def cfgAfter (i : Instr) (cfg : Word) : Word :=
  match i with
  | .cfgWr value => cfgWrite cfg value
  | _ => cfg

/-- The result or error of an operation: a function of `CFG` and the operands (R26). -/
def resultOf (i : Instr) (cfg : Word) : Except ErrorKind Result :=
  match i with
  | .cfgWr _ => .ok .none
  | .cfgRd => .ok (.value (cfgRead cfg))
  | .buildD ext id data => buildResult (cfgFd cfg) ext id data cfg
  | .buildC ext id data => buildResult false ext id data cfg
  | .buildFd ext id data => buildResult true ext id data cfg
  | .parseAuto buf => parseResult .auto buf cfg
  | .parseC buf => parseResult .classic buf cfg
  | .parseFd buf => parseResult .fd buf cfg
  | .sigPack sig raw dlc pl => (packRaw sig raw dlc pl).map Result.pl
  | .sigUnpack sig pl => (unpackRaw sig pl).map Result.raw
  | .sigEnc sig phys dlc pl => (packRaw sig (scaleToRaw sig phys) dlc pl).map Result.pl
  | .sigDec sig pl => (unpackRaw sig pl).map fun raw => Result.phys (scaleToPhys sig raw)
  | .msgEnc msg values => (msgEncode msg values).map Result.data
  | .msgDec msg pl => (msgDecode msg pl).map Result.signals

/-- A response from a result or an error (R21, R189). -/
def responseOf : Except ErrorKind Result → Response
  | .ok r => .ok r
  | .error e => .error e

theorem deliver_eq (r : Except ErrorKind Result) (s : State) : deliver r s = .next (answered s (responseOf r)) := by
  cases r <;> rfl

/-- Every meaning, in one form: refused when the descriptor is not well formed, and otherwise one response and the next
`CFG`. -/
theorem exec_eq (i : Instr) (s : State) :
    exec i s = if i.descriptorOk then
        .next (answered { s with cfg := cfgAfter i s.cfg } (responseOf (resultOf i s.cfg)))
      else .refused .illFormedDescriptor := by
  cases i <;> simp only [exec, execCfgWr, execCfgRd, execBuildD, execBuildC, execBuildFd, execParseAuto, execParseC,
    execParseFd, execSigPack, execSigUnpack, execSigEnc, execSigDec, execMsgEnc, execMsgDec, withDescriptor,
    Instr.descriptorOk, deliver_eq, respond_eq, if_true] <;> rfl

/-- If a meaning answers a next state, this is that state. -/
theorem exec_next {i : Instr} {s t : State} (h : exec i s = .next t) :
    i.descriptorOk = true ∧ t = answered { s with cfg := cfgAfter i s.cfg } (responseOf (resultOf i s.cfg)) := by
  rw [exec_eq] at h
  cases hd : i.descriptorOk with
  | true => simp only [hd, if_true, Host.Outcome.next.injEq] at h; exact ⟨rfl, h.symm⟩
  | false => simp [hd] at h

/-- A served request, each way it can end (R13, R29, R132). -/
theorem serve_cases (r : Request) (s : State) :
    (∃ e, decode r = .error e ∧ serve r s = .next (answered s (.error .illegalRequest))) ∨
    (∃ i, decode r = .ok i ∧ i.presentable = false ∧ serve r s = .refused .notPresentable) ∨
    (∃ i, decode r = .ok i ∧ i.presentable = true ∧ serve r s = exec i s) := by
  unfold serve
  cases hd : decode r with
  | error e => exact .inl ⟨e, rfl, rfl⟩
  | ok i =>
    cases hp : i.presentable with
    | false => exact .inr (.inl ⟨i, rfl, hp, by simp [hp]⟩)
    | true => exact .inr (.inr ⟨i, rfl, hp, by simp [hp]⟩)

/-- A step, each way it can end (R13, R192). -/
theorem step_cases (s : State) :
    (s.requests = [] ∧ step s = .next s) ∨
    (∃ r rest, s.requests = r :: rest ∧ step s = serve r { s with requests := rest }) := by
  unfold step
  cases hr : s.requests with
  | nil => exact .inl ⟨rfl, by rw [fetch_nil hr]; rfl⟩
  | cons r rest => exact .inr ⟨r, rest, rfl, by rw [fetch_cons hr]⟩

end Sys2Proof.Machine
end

