-- ==== Sys2Proof/Laws/Messenger.lean ====
section
/-! SUPPORT. What one request of the host software to the block can give back. -/

namespace Sys2Proof.Machine

/-- The block answers: the caller has the response, and the state that carries it. -/
theorem callBlock_next {i : Instr} {s t : State} {x : Response} (hd : decode (encode i) = .ok i)
    (hp : i.presentable = true) (h : exec i s = .next (answered t x)) : callBlock i s = .ok (x, answered t x) := by
  unfold callBlock serve
  rw [hd]
  simp only [hp, if_true]
  rw [h]
  rfl

/-- The block refuses: so does the call. -/
theorem callBlock_refused {i : Instr} {s : State} {r : Refusal} (hd : decode (encode i) = .ok i)
    (hp : i.presentable = true) (h : exec i s = .refused r) : callBlock i s = .error r := by
  unfold callBlock serve
  rw [hd]
  simp only [hp, if_true]
  rw [h]

end Sys2Proof.Machine
end

