-- ==== Sys2Proof/Tests/Slice0.lean ====
section
/-! SUPPORT. The model's own tests. Expected values are those of 95_test_vectors.md (each theorem names its vector) or
of the rule named. The witnesses at the end show, for each statement of Obligations.lean that has hypotheses, a
concrete state and operands that meet them together. -/

namespace Sys2Proof.Tests
open Sys2Proof Sys2Proof.Machine

-- One theorem at a time: each kernel evaluation waits for the ones before it, and many waiting threads take more memory
-- than the check allows.
set_option Elab.async false

/-! ## Helpers -/

/-- The state an outcome goes on in. -/
def nextOf : Host.Outcome State Fault Refusal → Option State
  | .next t => some t
  | _ => none

theorem eq_next {o : Host.Outcome State Fault Refusal} {t : State} (h : nextOf o = some t) : o = .next t := by
  cases o <;> simp [nextOf] at h
  rw [h]

/-- The state with `CFG` as given and one request on the port. -/
def asked (cfg header : Word) (b : Body) : State := { cfg := cfg, requests := [⟨header, b⟩], response := none }

/-- The response of one step to one request. -/
def responseTo (cfg header : Word) (b : Body) : Option Response := (nextOf (step (asked cfg header b))).bind State.response

/-- `CFG` after one step on one request. -/
def cfgAfterStep (cfg header : Word) (b : Body) : Option Word := (nextOf (step (asked cfg header b))).map State.cfg

/-- A signal in the notation of R64, `start|length@digit sign`. -/
def sg (start : Int) (length : Nat) (order : BitOrder) (sign : Sign) : DbcSignal :=
  { name := "S", startBit := start, length := length, endianness := order, sign := sign, factor := 1, offset := 0 }

def deadBeef : Bytes := [0xDE#8, 0xAD#8, 0xBE#8, 0xEF#8]
def s1Bytes : Bytes := [0#8, 0#8, 0x01#8, 0x23#8, 4#8, 0#8, 0#8, 0#8] ++ deadBeef ++ zeros 4
def s2Bytes : Bytes := [0x80#8, 0#8, 0x1A#8, 0xBC#8, 4#8, 0#8, 0#8, 0#8] ++ deadBeef ++ zeros 4
def speed : DbcSignal := { sg 0 8 .little .unsigned with name := "Speed" }
def temp : DbcSignal := { sg 8 8 .little .unsigned with name := "Temp", factor := 1 / 2 }
/-- Message `Example` of section 5.1. -/
def exampleMsg : DbcMessage := { id := 256, name := "Example", dlc := 8, signals := [speed, temp] }
def exampleValues : ValueMap := [("Speed", 10), ("Temp", 20)]
def examplePl : Bytes := [0x0A#8, 0x28#8] ++ zeros 6
def s0 : State := State.reset
/-- A state that differs from reset everywhere: little-endian, FD, an error just returned. -/
def s3 : State := { cfg := 3#32, requests := [], response := some (.error .incomplete) }

/-! ## WellFormed refuses (R29, R7, R19, R20) -/

theorem test_wf_accepts : exampleMsg.wellFormed = true ∧ ValueMap.wellFormed exampleValues = true := by decide +kernel
theorem test_wf_length_zero : (sg 0 0 .little .unsigned).wellFormed = false := by decide +kernel
theorem test_wf_length_65 : (sg 0 65 .big .signed).wellFormed = false := by decide +kernel
theorem test_wf_length_64 : (sg 0 64 .big .signed).wellFormed = true := by decide +kernel
theorem test_wf_factor_zero : ({ sg 0 8 .little .unsigned with factor := 0 } : DbcSignal).wellFormed = false := by
  decide +kernel
theorem test_wf_negative_start : (sg (-1) 8 .little .unsigned).wellFormed = true := by decide +kernel
theorem test_wf_dlc_65 : ({ exampleMsg with dlc := 65 } : DbcMessage).wellFormed = false := by decide +kernel
theorem test_wf_message_signal :
    ({ exampleMsg with signals := [speed, sg 0 0 .little .unsigned] } : DbcMessage).wellFormed = false := by
  decide +kernel
theorem test_wf_duplicate_key : ValueMap.wellFormed [("A", 1), ("A", 2)] = false := by decide
theorem test_wf_data_256 : (Instr.buildFd false 0 (zeros 256)).wellFormed = false := by decide +kernel
theorem test_wf_buf_73 : (Instr.parseFd (zeros 73)).wellFormed = false ∧ (Instr.parseFd (zeros 72)).wellFormed = true := by
  decide
theorem test_wf_operand_dlc_65 : (Instr.sigPack speed 0 65 []).wellFormed = false := by decide
theorem test_wf_payload_65 : (Instr.sigUnpack speed (zeros 65)).wellFormed = false ∧
    (Instr.msgDec exampleMsg (zeros 65)).wellFormed = false := by decide
theorem test_wf_descriptor_refused : nextOf (step (asked 0 0x00000021 { Body.blank with sig := sg 0 0 .little .signed })) = none := by
  decide +kernel

/-! ## Decoding: headers written out from R59 and R60 -/

/-- Bits 31:9 zero, `EXT` in bit 8, `OP` in bits 7:0. -/
theorem test_decode_build : decodeTableWord 32 0b00000000000000000000000000010000 = some (.buildD false 0 []) ∧
    decodeTableWord 32 0b00000000000000000000000100010001 = some (.buildC true 0 []) ∧
    decodeTableWord 32 0b00000000000000000000000000010010 = some (.buildFd false 0 []) := by decide +kernel
theorem test_decode_parse : decodeTableWord 32 0b00000000000000000000000000011000 = some (.parseAuto (zeros 16)) ∧
    decodeTableWord 32 0b00000000000000000000000000011001 = some (.parseC (zeros 16)) ∧
    decodeTableWord 32 0b00000000000000000000000000011010 = some (.parseFd (zeros 16)) := by decide +kernel
theorem test_decode_signal :
    decodeTableWord 32 0b00000000000000000000000000100000 = some (.sigPack DbcSignal.blank 0 1 [0]) ∧
    decodeTableWord 32 0b00000000000000000000000000100001 = some (.sigUnpack DbcSignal.blank [0]) ∧
    decodeTableWord 32 0b00000000000000000000000000100010 = some (.sigEnc DbcSignal.blank 0 1 [0]) ∧
    decodeTableWord 32 0b00000000000000000000000000100011 = some (.sigDec DbcSignal.blank [0]) := by decide +kernel
theorem test_decode_message :
    decodeTableWord 32 0b00000000000000000000000000110000 = some (.msgEnc Body.blank.msg []) ∧
    decodeTableWord 32 0b00000000000000000000000000110001 = some (.msgDec Body.blank.msg [0]) := by decide +kernel
theorem test_decode_control : decodeTableWord 32 0b00000000000000000000000000000001 = some (.cfgWr 0) ∧
    decodeTableWord 32 0b00000000000000000000000000000010 = some .cfgRd := by decide +kernel
/-- V-CFG-6 to V-CFG-10, each with its reason in R61. -/
theorem test_decode_illegal : decode ⟨0x00000003, Body.blank⟩ = .error .unknownOp ∧
    decode ⟨0x00000118, Body.blank⟩ = .error .extOutsideBuild ∧
    decode ⟨0x00000211, Body.blank⟩ = .error .reservedBits ∧
    decode ⟨0x00000000, Body.blank⟩ = .error .unknownOp ∧
    decode ⟨0x80000010, Body.blank⟩ = .error .reservedBits := by decide +kernel
/-- V-CFG-11. -/
theorem test_decode_ext : decode ⟨0x00000110, { Body.blank with id := 0x1ABC, data := deadBeef }⟩ =
    .ok (.buildD true 0x1ABC deadBeef) := by decide +kernel

/-! ## One step on the spec's vectors -/

/-- V-CFG-3, V-CFG-5. -/
theorem test_cfg_wr : cfgAfterStep 1 0x00000001 { Body.blank with value := 0xFFFFFFFF } = some 3 ∧
    cfgAfterStep 3 0x00000001 { Body.blank with value := 0xFFFFFFFC } = some 0 := by decide +kernel
/-- V-CFG-1, V-CFG-4. -/
theorem test_cfg_rd : responseTo 0 0x00000002 Body.blank = some (.ok (.value 0)) ∧
    responseTo 3 0x00000002 Body.blank = some (.ok (.value 3)) := by decide +kernel
/-- V-CFG-6, V-CFG-12: the error, and `CFG` unchanged. -/
theorem test_illegal_request : responseTo 3 0x00000003 Body.blank = some (.error .illegalRequest) ∧
    cfgAfterStep 3 0x00000003 Body.blank = some 3 := by decide +kernel
/-- S1, V-FRM-8. -/
theorem test_build_c : responseTo 0 0x00000011 { Body.blank with id := 0x123, data := deadBeef } = some (.ok (.bytes s1Bytes)) ∧
    responseTo 1 0x00000111 { Body.blank with id := 0x1ABC, data := deadBeef } = some (.ok (.bytes
      ([0xBC#8, 0x1A#8, 0#8, 0x80#8, 4#8, 0#8, 0#8, 0#8] ++ deadBeef ++ zeros 4))) := by decide +kernel
/-- V-FRM-3, V-FRM-5. -/
theorem test_build_c_limits : responseTo 0 0x00000011 { Body.blank with id := 0x7FF, data := zeros 9 } =
      some (.error .invalidLength) ∧
    responseTo 0 0x00000111 { Body.blank with id := 0xFFFFFFFF, data := [0x55#8] } =
      some (.ok (.bytes ([0x9F#8, 0xFF#8, 0xFF#8, 0xFF#8, 1#8, 0#8, 0#8, 0#8, 0x55#8] ++ zeros 7))) := by decide +kernel
/-- S3. -/
theorem test_build_fd : responseTo 0 0x00000012 { Body.blank with id := 0x123, data := List.replicate 64 0xAA#8 } =
    some (.ok (.bytes ([0#8, 0#8, 0x01#8, 0x23#8, 0x40#8, 0#8, 0#8, 0#8] ++ List.replicate 64 0xAA#8))) := by decide +kernel
/-- V-FRM-13, V-FRM-11. -/
theorem test_build_fd_limits : responseTo 0 0x00000012 { Body.blank with id := 1, data := zeros 65 } =
      some (.error .invalidLength) ∧
    responseTo 0 0x00000012 { Body.blank with id := 0x123, data := [1, 2, 3, 4, 5, 6, 7, 8, 9] } =
      some (.ok (.bytes ([0#8, 0#8, 0x01#8, 0x23#8, 9#8, 0#8, 0#8, 0#8, 1, 2, 3, 4, 5, 6, 7, 8, 9] ++ zeros 55))) := by
  decide +kernel
/-- V-FRM-15, V-FRM-16. -/
theorem test_build_d : responseTo 0 0x00000010 { Body.blank with id := 0x123, data := deadBeef } = some (.ok (.bytes s1Bytes)) ∧
    responseTo 2 0x00000010 { Body.blank with id := 0x123, data := deadBeef } =
      some (.ok (.bytes (s1Bytes ++ zeros 56))) := by decide +kernel
/-- S4, V-FRM-33. -/
theorem test_parse_auto : responseTo 0 0x00000018 { Body.blank with buf := s2Bytes } =
      some (.ok (.frame ⟨0x1ABC, true, deadBeef, false⟩)) ∧
    responseTo 1 0x00000018 { Body.blank with buf := s2Bytes } =
      some (.ok (.frame ⟨0x1C1A0080, true, deadBeef, false⟩)) := by decide +kernel
/-- V-FRM-21, V-FRM-24: too short for the header, and too short for the payload. -/
theorem test_parse_auto_short : responseTo 0 0x00000018 { Body.blank with buf := s2Bytes.take 7 } =
      some (.error .incomplete) ∧
    responseTo 0 0x00000018 { Body.blank with buf := s2Bytes.take 11 } = some (.ok (.frame ⟨0x1ABC, true, [], false⟩)) := by
  decide +kernel
/-- V-FRM-29 (12 data bytes, conflict C4), V-FRM-43. -/
theorem test_parse_c : responseTo 0 0x00000019 { Body.blank with buf :=
        [0#8, 0#8, 0x01#8, 0x23#8, 0x0C#8, 0#8, 0#8, 0#8] ++ List.replicate 12 7#8 ++ zeros 4 } =
      some (.ok (.frame ⟨0x123, false, List.replicate 12 7#8, false⟩)) ∧
    responseTo 0 0x00000019 { Body.blank with buf := s2Bytes.set 4 0x14#8 } =
      some (.ok (.frame ⟨0x1ABC, true, deadBeef, false⟩)) := by decide +kernel
/-- V-FRM-42, V-FRM-43. -/
theorem test_parse_fd : responseTo 0 0x0000001A { Body.blank with buf := s2Bytes } =
      some (.ok (.frame ⟨0x1ABC, true, deadBeef, true⟩)) ∧
    responseTo 0 0x0000001A { Body.blank with buf := s2Bytes.set 4 0x14#8 } =
      some (.ok (.frame ⟨0x1ABC, true, [], true⟩)) := by decide +kernel
/-- S6 (R112), V-SIG-1. -/
theorem test_sig_pack : responseTo 0 0x00000020
        { Body.blank with sig := sg 12 12 .big .unsigned, raw := 0xABC, dlc := 3, pl := zeros 3 } =
      some (.ok (.pl [0xD5#8, 0x03#8, 0x00#8])) ∧
    responseTo 0 0x00000020 { Body.blank with sig := sg 4 4 .little .unsigned, raw := 0xA, dlc := 1, pl := [0xFF#8] } =
      some (.ok (.pl [0xAF#8])) := by decide +kernel
/-- V-SIG-25, V-SIG-27, V-SIG-26: the three errors, in their order. -/
theorem test_sig_pack_errors : responseTo 0 0x00000020
        { Body.blank with sig := sg 60 8 .little .signed, raw := 200, dlc := 8, pl := zeros 8 } =
      some (.error .signalOutOfRange) ∧
    responseTo 0 0x00000020 { Body.blank with sig := sg 8 8 .little .unsigned, raw := 1, dlc := 1, pl := zeros 2 } =
      some (.error .signalExceedsMessage) ∧
    responseTo 0 0x00000020 { Body.blank with sig := sg 8 8 .little .unsigned, raw := 1, dlc := 8, pl := zeros 1 } =
      some (.error .bitPositionOutOfBounds) := by decide +kernel
/-- V-SIG-20, V-SIG-11. -/
theorem test_sig_unpack : responseTo 0 0x00000021 { Body.blank with sig := sg 12 12 .big .signed, pl := [1#8, 0#8, 0#8] } =
      some (.ok (.raw (-2048))) ∧
    responseTo 0 0x00000021 { Body.blank with sig := sg 0 64 .little .unsigned, pl := List.replicate 8 0xFF#8 } =
      some (.ok (.raw 18446744073709551615)) := by decide +kernel
/-- V-SIG-28, V-SIG-24. -/
theorem test_sig_unpack_errors : responseTo 0 0x00000021
        { Body.blank with sig := sg 4 8 .little .unsigned, pl := [0x12#8] } = some (.error .bitPositionOutOfBounds) ∧
    responseTo 0 0x00000021 { Body.blank with sig := sg (-1) 8 .little .unsigned, pl := zeros 8 } =
      some (.error .bitPositionOutOfBounds) := by decide +kernel
/-- V-SIG-52, V-SIG-47. No test touches a tie: `ROUND_TIE` has no value. -/
theorem test_sig_enc : responseTo 0 0x00000022 { Body.blank with
        sig := { sg 8 16 .big .signed with factor := 1 / 8 }, phys := -801 / 8, dlc := 2, pl := zeros 2 } =
      some (.ok (.pl [0x3F#8, 0xFB#8])) ∧
    responseTo 0 0x00000022 { Body.blank with sig := speed, phys := -1 / 4, dlc := 1, pl := [0xFF#8] } =
      some (.ok (.pl [0x00#8])) := by decide +kernel
/-- V-SIG-41 and V-SIG-54: a negative raw value is rejected, one too large is truncated. -/
theorem test_sig_enc_range : responseTo 0 0x00000022 { Body.blank with
        sig := { speed with offset := -40 }, phys := -41, dlc := 1, pl := zeros 1 } = some (.error .signalOutOfRange) ∧
    responseTo 0 0x00000022 { Body.blank with sig := speed, phys := 1000, dlc := 1, pl := zeros 1 } =
      some (.ok (.pl [0xE8#8])) := by decide +kernel
/-- V-SIG-53, V-SIG-52. -/
theorem test_sig_dec : responseTo 0 0x00000023 { Body.blank with sig := { speed with factor := 1 / 10 }, pl := [3#8] } =
      some (.ok (.phys (3 / 10))) ∧
    responseTo 0 0x00000023 { Body.blank with
        sig := { sg 8 16 .big .signed with factor := 1 / 8 }, pl := [0x3F#8, 0xFB#8] } =
      some (.ok (.phys (-801 / 8))) := by decide +kernel
/-- S5, V-MSG-9 (the later signal overwrites). -/
theorem test_msg_enc : responseTo 0 0x00000030 { Body.blank with msg := exampleMsg, values := exampleValues } =
      some (.ok (.data examplePl)) ∧
    responseTo 0 0x00000030 { Body.blank with
        msg := { id := 514, name := "Over", dlc := 2, signals :=
          [{ speed with name := "X" }, { sg 4 8 .little .unsigned with name := "Y" }] },
        values := [("X", 255), ("Y", 0)] } = some (.ok (.data [0x0F#8, 0x00#8])) := by decide +kernel
/-- V-MSG-5: a failure returns nothing, not even the first signal's byte. -/
theorem test_msg_enc_error : responseTo 0 0x00000030
    { Body.blank with msg := exampleMsg, values := [("Speed", 10), ("Temp", -1)] } = some (.error .signalOutOfRange) := by
  decide +kernel
/-- S5, V-MSG-15. -/
theorem test_msg_dec : responseTo 0 0x00000031 { Body.blank with msg := exampleMsg, pl := examplePl } =
      some (.ok (.signals exampleValues)) ∧
    responseTo 0 0x00000031 { Body.blank with msg := exampleMsg, pl := [0x0A#8] } =
      some (.error .bitPositionOutOfBounds) := by decide +kernel
/-- The host interface: the word given is the next request, and the one after it is as before. -/
theorem test_with_fetch_word : (nextOf (step (State.reset.withFetchWord 32 0x00000002))).bind State.response =
    some (.ok (.value 0)) := by decide +kernel
/-- S9 (host software). -/
theorem test_filter : filterAccepts 0x150 (.range 0x100 0x200 true) = true ∧
    filterAccepts 0x300 (.range 0x100 0x200 true) = false := by decide
/-- S5's lines (host software, conflict C7). -/
theorem test_read_dbc :
    (readDbc "BO_ 256 Example: 8 X\n SG_ Speed: 0|8@1+ (1,0)\n SG_ Temp: 8|8@1+ (0.5,0)".toList).toOption =
      some [exampleMsg] := by decide +kernel


/-- R157 and R159: a message line without its node, and signal lines whose start bit or length is no number, are
skipped; a negative start bit and an unstated factor are refused (N26). -/
theorem test_dbc_line :
    dbcLine "BO_ 256 Example: 8 X".toList = .message 256 "Example" 8 ∧
    dbcLine "BO_ 256 Example: 8".toList = .skipped ∧
    dbcLine "SG_ A: x|8@1+ (1,0)".toList = .skipped ∧
    dbcLine "SG_ A: 0|y@1+ (1,0)".toList = .skipped ∧
    dbcLine "SG_ A: -1|8@1+ (1,0)".toList = .unstatedNumber ∧
    dbcLine "SG_ A: 0|8@1+ (1e3,0)".toList = .unstatedNumber := by decide +kernel

/-! ## Witnesses

One for each statement with hypotheses, named after it, at boundary values of each clause. `s0` is the reset state and
`s3` a state of the other byte order and form. -/

theorem fits {sig : DbcSignal} {n : Nat} (h : boundsOk sig n = true) : fitsIn sig n := (boundsOk_iff sig n).1 h
theorem fitsNot {sig : DbcSignal} {n : Nat} (h : boundsOk sig n = false) : ¬ fitsIn sig n := by
  rw [← boundsOk_iff, h]; simp
theorem inRange {sig : DbcSignal} {raw : Int} (h : rangeOk sig raw = true) : rawFits sig raw := (rangeOk_iff sig raw).1 h
theorem outOfRange {sig : DbcSignal} {raw : Int} (h : rangeOk sig raw = false) : ¬ rawFits sig raw := by
  rw [← rangeOk_iff, h]; simp

/-- Where the scaled value is an integer it is the only nearest one (R91). -/
theorem nearest_eq {sig : DbcSignal} {phys : Rat} {n raw : Int} (hn : (phys - sig.offset) / sig.factor = n)
    (h : nearestRaw sig phys raw) : raw = n := by
  unfold nearestRaw at h
  rw [hn, abs_le] at h
  have h1 : ((raw - n : Int) : Rat) < ((1 : Int) : Rat) := by push_cast; linarith [h.2]
  have h2 : (((-1 : Int)) : Rat) < ((raw - n : Int) : Rat) := by push_cast; linarith [h.1]
  rw [Int.cast_lt] at h1 h2
  omega

theorem packable_of {sig : DbcSignal} {phys : Rat} {dlc : Nat} (n : Int) (hb : boundsOk sig dlc = true)
    (hn : (phys - sig.offset) / sig.factor = n) (hr : rangeOk sig n = true) : packable sig phys dlc :=
  ⟨fits hb, fun _ h => (nearest_eq hn h) ▸ inRange hr⟩

theorem witness_CfgRdAfterCfgWr : ∃ t, exec (.cfgWr 0xFFFFFFFF) s0 = .next t := ⟨_, rfl⟩
theorem witness_OnlyCfgWrWritesCfg :
    ∃ t, step (asked 0 0x00000001 { Body.blank with value := 3 }) = .next t ∧ t.cfg ≠ 0 :=
  ⟨⟨3, [], some (.ok .none)⟩, eq_next (by decide +kernel), by decide⟩
theorem witness_BuildCRule : (zeros 8).length ≤ 8 ∧ 8 < (zeros 9).length := by decide
theorem witness_BuildFdRule : (zeros 64).length ≤ 64 ∧ 64 < (zeros 65).length := by decide
theorem witness_BuildDRule :
    8 = (if s0.cfg.getLsbD 1 then 64 else 8) ∧ (zeros 8).length ≤ 8 ∧ 8 < (zeros 9).length ∧
    64 = (if s3.cfg.getLsbD 1 then 64 else 8) ∧ (zeros 64).length ≤ 64 ∧ 64 < (zeros 65).length := by decide
theorem witness_ParseAutoRule : 8 ≤ (zeros 71).length ∧ 8 ≤ (zeros 72).length ∧ (zeros 7).length < 8 := by decide
theorem witness_ParseCRule : 8 ≤ (zeros 8).length ∧ (zeros 7).length < 8 := by decide
theorem witness_ParseFdRule : 8 ≤ (zeros 8).length ∧ (zeros 7).length < 8 := by decide
theorem witness_ClassicFrameRoundTrip :
    0x1FFFFFFF < 2 ^ 29 ∧ (zeros 8).length ≤ 8 ∧ ({ s3 with cfg := 2#32 } : State).cfg.getLsbD 0 = s0.cfg.getLsbD 0 := by
  decide
theorem witness_FdFrameRoundTrip :
    0x1FFFFFFF < 2 ^ 29 ∧ (zeros 64).length ≤ 64 ∧ ({ s0 with cfg := 1#32 } : State).cfg.getLsbD 0 = s3.cfg.getLsbD 0 := by
  decide
theorem witness_EffBitIsIndependent : (zeros 8).length ≤ 8 ∧ 127 < 128 := by decide
theorem witness_MixedByteOrderSwapsIdentifier :
    (zeros 8).length ≤ (if false then 64 else 8) ∧ (zeros 64).length ≤ (if true then 64 else 8) ∧
    s3.cfg.getLsbD 0 ≠ s0.cfg.getLsbD 0 := by decide
theorem witness_ByteOrderReachesIdentifierOnly : (zeros 64).length ≤ 64 ∧ s3.cfg.getLsbD 0 ≠ s0.cfg.getLsbD 0 := by decide
theorem witness_ClassicParseClampsDlc : 8 ≤ (s2Bytes.set 4 0xF2#8).length := by decide
/-- An FD frame in 72 bytes, a classic one in 16, and a classic one in 17 bytes with a low nibble of 8. -/
theorem witness_ParsedFrameKeepsInvariants :
    (∃ t f, exec (.parseFd (zeros 72)) s0 = .next t ∧ t.response = some (.ok (.frame f)) ∧ f.fd = true) ∧
    (∃ t f, exec (.parseAuto (zeros 16)) s0 = .next t ∧ t.response = some (.ok (.frame f)) ∧ f.fd = false) ∧
    (∃ t f, exec (.parseC ((zeros 17).set 4 0xF8#8)) s0 = .next t ∧ t.response = some (.ok (.frame f)) ∧
      f.fd = false ∧ (((zeros 17).set 4 0xF8#8).getD 4 0).toNat % 16 ≤ 8) :=
  ⟨⟨_, _, rfl, rfl, rfl⟩, ⟨_, _, rfl, rfl, rfl⟩, ⟨_, _, rfl, rfl, rfl, by decide⟩⟩
theorem witness_BitPositionFormulas :
    (sg (-1) 1 .little .signed).endianness = .little ∧
    ((sg 8 1 .big .signed).endianness = .big ∧ 0 ≤ (sg 8 1 .big .signed).startBit ∧
      (sg 8 1 .big .signed).startBit = 8 * 1 + 0) ∧
    ((sg 15 1 .big .signed).endianness = .big ∧ (sg 15 1 .big .signed).startBit = 8 * 1 + 7) := by decide
theorem witness_ConformsToS6 : (sg 12 12 .big .unsigned).startBit = 12 ∧ (sg 12 12 .big .unsigned).length = 12 ∧
    (sg 12 12 .big .unsigned).endianness = .big ∧ (sg 12 12 .big .unsigned).sign = .unsigned ∧
    (sg 12 12 .big .unsigned).factor ≠ 0 := by decide +kernel
theorem witness_FootprintIsAnInterval :
    0 ≤ (sg 0 64 .little .signed).startBit ∧ (sg 0 64 .little .signed).endianness = .little ∧
    0 ≤ (sg 56 64 .big .signed).startBit ∧ (sg 56 64 .big .signed).endianness = .big ∧
    (63 : Int) = (56 / 8) * 8 + (7 - 56 % 8) := by decide
theorem witness_BoundsCheckIsTwoComparisons :
    1 ≤ (sg 0 1 .little .signed).length ∧ 0 ≤ (sg 0 1 .little .signed).startBit ∧
    1 ≤ (sg 7 1 .big .signed).length ∧ 0 ≤ (sg 7 1 .big .signed).startBit ∧
    (0 : Int) = (7 / 8) * 8 + (7 - 7 % 8) := by decide
/-- The end of a signed range and one beyond it; the last bit of the message and one beyond it; a payload shorter than the
message. -/
theorem witness_SigPackRule :
    (sg 56 8 .little .signed).wellFormed = true ∧ rawFits (sg 56 8 .little .signed) 127 ∧
    fitsIn (sg 56 8 .little .signed) 8 ∧ ¬ rawFits (sg 56 8 .little .signed) 128 ∧
    (sg 57 8 .little .signed).wellFormed = true ∧ rawFits (sg 57 8 .little .signed) (-128) ∧
    ¬ fitsIn (sg 57 8 .little .signed) 8 ∧ ¬ fitsIn (sg 56 8 .little .signed) 7 :=
  ⟨by decide +kernel, inRange (by decide), fits (by decide), outOfRange (by decide), by decide +kernel,
    inRange (by decide), fitsNot (by decide), fitsNot (by decide)⟩
theorem witness_SigUnpackRule :
    ((sg 8 16 .big .signed).wellFormed = true ∧ fitsIn (sg 8 16 .big .signed) 2) ∧
    ((sg 7 2 .big .signed).wellFormed = true ∧ ¬ fitsIn (sg 7 2 .big .signed) 2) ∧
    ((sg (-1) 8 .little .signed).wellFormed = true ∧ ¬ fitsIn (sg (-1) 8 .little .signed) 8) :=
  ⟨⟨by decide +kernel, fits (by decide)⟩, ⟨by decide +kernel, fitsNot (by decide)⟩, by decide +kernel,
    fitsNot (by decide)⟩
theorem witness_SigEncScalesThenPacks : temp.wellFormed = true := by decide +kernel
theorem witness_SigEncCompletes :
    temp.wellFormed = true ∧ packable temp 0 2 ∧ fitsIn temp (zeros 2).length ∧
    ∀ raw, nearestRaw temp (-1 / 2) raw → ¬ rawFits temp raw :=
  ⟨by decide +kernel, packable_of 0 (by decide) (by decide +kernel) (by decide), fits (by decide),
    fun _ h => (nearest_eq (n := -1) (by decide +kernel) h) ▸ outOfRange (by decide)⟩
theorem witness_SigDecRule : temp.wellFormed = true ∧ fitsIn temp 2 ∧ ¬ fitsIn temp 1 :=
  ⟨by decide +kernel, fits (by decide), fitsNot (by decide)⟩
theorem witness_RawValueRoundTrip :
    (sg 12 12 .big .unsigned).wellFormed = true ∧ rawFits (sg 12 12 .big .unsigned) 4095 ∧ (4095 : Int) < 2 ^ 12 ∧
    fitsIn (sg 12 12 .big .unsigned) 2 ∧ 2 ≤ (zeros 2).length :=
  ⟨by decide +kernel, inRange (by decide), by decide, fits (by decide), by decide⟩
theorem witness_SignedRangeIsExact :
    (sg 0 64 .little .signed).wellFormed = true ∧ (sg 0 64 .little .signed).sign = .signed := by decide +kernel
theorem witness_UnsignedOverflowIsTruncated :
    speed.wellFormed = true ∧ speed.sign = .unsigned ∧ (2 : Int) ^ speed.length ≤ 256 ∧ fitsIn speed 1 :=
  ⟨by decide +kernel, by decide, by decide, fits (by decide)⟩
theorem witness_MotorolaIsReversedIntel :
    (sg 12 12 .big .unsigned).endianness = .big ∧ 0 ≤ (sg 12 12 .big .unsigned).startBit ∧
    (∀ i < 12, Nat.testBit 0x3D5 i = Nat.testBit 0xABC (12 - 1 - i)) ∧ (11 : Int) = (12 / 8) * 8 + (7 - 12 % 8) := by
  decide
theorem witness_RoundIsNearest : |((-3 : Int) : Rat) - (-13 / 4 : Rat)| < 1 / 2 := by
  rw [abs_lt]; constructor <;> norm_num
theorem witness_ScalingLosesHalfAStep : temp.factor ≠ 0 := by decide +kernel

theorem example_value (sig : DbcSignal) (hs : sig ∈ exampleMsg.signals) (phys : Rat)
    (h : valueGet exampleValues sig.name = some phys) : (sig = speed ∧ phys = 10) ∨ (sig = temp ∧ phys = 20) := by
  have hs' : sig = speed ∨ sig = temp := by simpa [exampleMsg] using hs
  rcases hs' with rfl | rfl
  · exact .inl ⟨rfl, by simpa [exampleValues, valueGet, speed] using h.symm⟩
  · exact .inr ⟨rfl, by simpa [exampleValues, valueGet, temp] using h.symm⟩

theorem speed_packable : packable speed 10 8 := packable_of 10 (by decide) (by decide +kernel) (by decide)
theorem temp_packable : packable temp 20 8 := packable_of 40 (by decide) (by decide +kernel) (by decide)

/-- A message of 8 bytes whose second signal needs bits 60 to 67. -/
def longMsg : DbcMessage := { exampleMsg with signals := [speed, sg 60 8 .little .unsigned] }

theorem witness_MsgEncRule :
    exampleMsg.wellFormed = true ∧
    (∀ sig ∈ exampleMsg.signals, ∀ phys, valueGet exampleValues sig.name = some phys → packable sig phys exampleMsg.dlc) ∧
    exampleMsg.signals = [speed] ++ temp :: [] ∧ 63 < 8 * exampleMsg.dlc :=
  ⟨by decide +kernel, fun sig hs phys h => by
    rcases example_value sig hs phys h with ⟨rfl, rfl⟩ | ⟨rfl, rfl⟩
    · exact speed_packable
    · exact temp_packable, rfl, by decide⟩
/-- V-MSG-5 (the second signal out of range), and a second signal that runs past the message. -/
theorem witness_MsgEncReportsFirstFailure :
    (exampleMsg.wellFormed = true ∧ exampleMsg.signals = [speed] ++ temp :: [] ∧
      valueGet [("Speed", 10), ("Temp", -1)] temp.name = some (-1) ∧
      (∀ x ∈ [speed], ∀ q, valueGet [("Speed", 10), ("Temp", -1)] x.name = some q → packable x q exampleMsg.dlc) ∧
      ∀ raw, nearestRaw temp (-1) raw → ¬ rawFits temp raw) ∧
    (longMsg.wellFormed = true ∧ longMsg.signals = [speed] ++ sg 60 8 .little .unsigned :: [] ∧
      valueGet [("Speed", 10), ("S", 1)] (sg 60 8 .little .unsigned).name = some 1 ∧
      (∀ x ∈ [speed], ∀ q, valueGet [("Speed", 10), ("S", 1)] x.name = some q → packable x q longMsg.dlc) ∧
      (∀ raw, nearestRaw (sg 60 8 .little .unsigned) 1 raw → rawFits (sg 60 8 .little .unsigned) raw) ∧
      ¬ fitsIn (sg 60 8 .little .unsigned) longMsg.dlc) := by
  have first : ∀ (rest : ValueMap) (x : DbcSignal), x ∈ [speed] → ∀ q, valueGet (("Speed", 10) :: rest) x.name = some q →
      packable x q 8 := by
    intro rest x hx q hq
    have hx' : x = speed := by simpa using hx
    subst hx'
    have hq' : q = 10 := by simpa [valueGet, speed] using hq.symm
    subst hq'
    exact speed_packable
  exact ⟨⟨by decide +kernel, rfl, by decide +kernel, first _,
      fun _ h => (nearest_eq (n := -2) (by decide +kernel) h) ▸ outOfRange (by decide)⟩,
    by decide +kernel, rfl, by decide +kernel, first _,
      fun _ h => (nearest_eq (n := 1) (by decide +kernel) h) ▸ inRange (by decide), fitsNot (by decide)⟩
theorem witness_MsgEncIgnoresUnknownKeys :
    ∀ sig ∈ exampleMsg.signals, valueGet exampleValues sig.name = valueGet (("Rpm", 5) :: exampleValues) sig.name := by
  decide +kernel
theorem witness_MsgDecRule :
    exampleMsg.wellFormed = true ∧ (∀ sig ∈ exampleMsg.signals, fitsIn sig examplePl.length) ∧
    (∃ sig ∈ exampleMsg.signals, ¬ fitsIn sig [0x0A#8].length) ∧
    exampleMsg.signals = [speed] ++ temp :: [] ∧ (∀ x ∈ ([] : List DbcSignal), x.name ≠ temp.name) :=
  ⟨by decide +kernel, fun sig hs => fits ((by decide : ∀ sig ∈ exampleMsg.signals, boundsOk sig examplePl.length = true) sig hs),
    ⟨temp, by simp [exampleMsg], fitsNot (by decide)⟩, rfl, by simp⟩
theorem witness_MessageRoundTrip :
    exampleMsg.wellFormed = true ∧ (exampleMsg.signals.map DbcSignal.name).Nodup ∧
    exampleMsg.signals.Pairwise (fun a b => ∀ p, touches a p → ¬ touches b p) ∧
    (∀ sig ∈ exampleMsg.signals, fitsIn sig exampleMsg.dlc) ∧
    (∀ sig ∈ exampleMsg.signals, ∀ phys, valueGet exampleValues sig.name = some phys → ∀ raw, nearestRaw sig phys raw →
      rawFits sig raw ∧ (sig.sign = .unsigned → raw < 2 ^ sig.length)) := by
  refine ⟨by decide +kernel, by decide, ?_,
    fun sig hs => fits ((by decide : ∀ sig ∈ exampleMsg.signals, boundsOk sig exampleMsg.dlc = true) sig hs), ?_⟩
  · refine List.Pairwise.cons ?_ (List.pairwise_singleton _ _)
    intro b hb p ⟨i, hi, h1⟩ ⟨j, hj, h2⟩
    have hb' : b = temp := by simpa using hb
    subst hb'
    simp only [bitPos, speed, temp, sg] at hi hj h1 h2
    omega
  · intro sig hs phys h raw hr
    rcases example_value sig hs phys h with ⟨rfl, rfl⟩ | ⟨rfl, rfl⟩
    · rw [nearest_eq (n := 10) (by decide +kernel) hr]; exact ⟨inRange (by decide), by decide⟩
    · rw [nearest_eq (n := 40) (by decide +kernel) hr]; exact ⟨inRange (by decide), by decide⟩
theorem witness_ErrorKindsByOperation :
    ∃ t, exec (.buildC false 0 (zeros 9)) s3 = .next t ∧ t.response = some (.error .invalidLength) := ⟨_, rfl, rfl⟩
theorem witness_ErrorLeavesStateUnchanged :
    ∃ t, exec (.parseFd (zeros 7)) s3 = .next t ∧ t.response = some (.error .incomplete) := ⟨_, rfl, rfl⟩
theorem witness_IllegalHeaderIsAnswered :
    0x00000003 % 256 ∉ [0x01, 0x02, 0x10, 0x11, 0x12, 0x18, 0x19, 0x1A, 0x20, 0x21, 0x22, 0x23, 0x30, 0x31] ∧
    (0x00000211#32).toNat / 512 ≠ 0 ∧
    ((0x00000118#32).getLsbD 8 = true ∧ (0x00000118#32).toNat % 256 ∉ [0x10, 0x11, 0x12]) := by decide
theorem witness_IllFormedDescriptorIsRefused :
    ¬ (1 ≤ (sg 0 0 .little .signed).length ∧ (sg 0 0 .little .signed).length ≤ 64 ∧ (sg 0 0 .little .signed).factor ≠ 0) ∧
    ¬ (({ exampleMsg with dlc := 65 } : DbcMessage).dlc ≤ 64 ∧ ∀ sig ∈ exampleMsg.signals, 1 ≤ sig.length ∧
      sig.length ≤ 64 ∧ sig.factor ≠ 0) := by decide +kernel
/-- Each row's test is met by its header; with `EXT` set, by the three BUILDs'. -/
theorem witness_OperationMapSelects :
    (∀ h ∈ [0x00000001#32, 0x00000002#32, 0x00000018#32, 0x00000019#32, 0x0000001A#32, 0x00000020#32, 0x00000021#32,
      0x00000022#32, 0x00000023#32, 0x00000030#32, 0x00000031#32], h &&& 0xFFFFFFFF#32 = h) ∧
    0x00000110#32 &&& 0xFFFFFEFF#32 = 0x00000010#32 ∧ 0x00000111#32 &&& 0xFFFFFEFF#32 = 0x00000011#32 ∧
    0x00000112#32 &&& 0xFFFFFEFF#32 = 0x00000012#32 := by simp
theorem witness_OperationMapIsUnambiguous :
    (⟨.buildC, 0x00000011#32, 0xFFFFFEFF#32⟩ : OpRow) ∈ opTable ∧
    (⟨.buildC, 0x00000011#32, 0xFFFFFEFF#32⟩ : OpRow).selects 0x00000111#32 = true := by decide
theorem witness_EncodeInvertsDecodeOnHeaders : ∃ i, decode ⟨0x00000112#32, Body.blank⟩ = .ok i :=
  ⟨.buildFd true 0 [], by decide +kernel⟩
theorem witness_StepRunsDecodedRequest :
    (asked 3 0x00000031 { Body.blank with msg := exampleMsg, pl := examplePl }).requests =
      ⟨0x00000031, { Body.blank with msg := exampleMsg, pl := examplePl }⟩ :: [] ∧
    decode ⟨0x00000031, { Body.blank with msg := exampleMsg, pl := examplePl }⟩ = .ok (.msgDec exampleMsg examplePl) ∧
    (Instr.msgDec exampleMsg examplePl).presentable = true ∧
    decode ⟨0x00000023, { Body.blank with sig := sg 0 0 .little .signed }⟩ = .ok (.sigDec (sg 0 0 .little .signed) [0]) ∧
    (Instr.sigDec (sg 0 0 .little .signed) [0]).presentable = true := by decide +kernel
theorem witness_StepWithoutServableRequest :
    s0.requests = [] ∧ decode ⟨0x0000001A, { Body.blank with buf := zeros 73 }⟩ = .ok (.parseFd (zeros 73)) ∧
    (Instr.parseFd (zeros 73)).presentable = false := by decide +kernel
theorem witness_ResponseDependsOnCfgAndRequest :
    (asked 3 0x00000002 Body.blank).cfg = s3.cfg ∧
    nextOf (step (asked 3 0x00000002 Body.blank)) = some ⟨3, [], some (.ok (.value 3))⟩ := by decide +kernel
theorem witness_EveryWellFormedRequestIsAnswered :
    decode ⟨0x00000030, { Body.blank with msg := exampleMsg, values := exampleValues }⟩ =
      .ok (.msgEnc exampleMsg exampleValues) ∧ (Instr.msgEnc exampleMsg exampleValues).wellFormed = true := by
  decide +kernel
/-- Two requests, one illegal and one well formed. -/
theorem witness_RunServesEveryRequest :
    ∀ r ∈ [⟨0x00000003, Body.blank⟩, ⟨0x00000018, Body.blank⟩], ∀ i, decode r = .ok i → i.wellFormed = true := by
  intro r hr i hi
  have hr' : r = ⟨0x00000003, Body.blank⟩ ∨ r = ⟨0x00000018, Body.blank⟩ := by simpa using hr
  rcases hr' with rfl | rfl
  · rw [show decode ⟨0x00000003, Body.blank⟩ = .error .unknownOp by decide +kernel] at hi; cases hi
  · rw [show decode ⟨0x00000018, Body.blank⟩ = .ok (.parseAuto (zeros 16)) by decide +kernel] at hi
    cases hi; decide
theorem witness_StepKeepsInvariant :
    (asked 3 0x00000010 { Body.blank with id := 1, data := zeros 64 }).Inv ∧
    (nextOf (step (asked 3 0x00000010 { Body.blank with id := 1, data := zeros 64 }))).isSome = true :=
  ⟨⟨by decide, by intro r h; cases h⟩, by decide +kernel⟩
theorem witness_SendRawClosesItsSocket :
    HostAction.wrote s1Bytes ∈ (sendRaw true true 0x123 deadBeef none none s0).2.1 := by decide +kernel
theorem witness_EncodeCanFindsTheMessage :
    (∀ m ∈ [exampleMsg], m.name ≠ "Absent") ∧ exampleMsg ∈ [exampleMsg] ∧ exampleMsg.name = "Example" ∧
    ([exampleMsg].map DbcMessage.name).Nodup ∧ ValueMap.wellFormed exampleValues = true ∧
    exec (.msgEnc exampleMsg exampleValues) s0 = .next (answered s0 (.ok (.data examplePl))) ∧
    ValueMap.wellFormed [("Temp", -1)] = true ∧
    exec (.msgEnc exampleMsg [("Temp", -1)]) s0 = .next (answered s0 (.error .signalOutOfRange)) :=
  ⟨by decide +kernel, by simp, rfl, by decide +kernel, by decide +kernel, eq_next (by decide +kernel), by decide +kernel,
    eq_next (by decide +kernel)⟩
/-- Its last clause: a message whose `dlc` is 65. -/
theorem witness_EncodeCanFindsTheMessage_refused :
    exec (.msgEnc { exampleMsg with dlc := 65 } exampleValues) s0 = .refused .illFormedDescriptor ∧
    ([{ exampleMsg with dlc := 65 }].map DbcMessage.name).Nodup ∧ ValueMap.wellFormed exampleValues = true :=
  ⟨rfl, by decide +kernel, by decide +kernel⟩

end Sys2Proof.Tests
end

