-- ==== Sys2Proof/Proofs/SendDefaults.lean ====
section
/-! The BUILD operation that `send_raw` issues, and what an omitted argument stands for (R6, R65, R149). -/

namespace Sys2Proof.Machine

variable (id : Word) (data : Bytes) (extended fd : Option Bool)

/-! ## The operation for each value of `fd` (R65) -/

@[simp] theorem sendOp_fd_omitted : sendOp id data extended none = .buildD (extended.getD false) id data := rfl
@[simp] theorem sendOp_fd_false : sendOp id data extended (some false) = .buildC (extended.getD false) id data := rfl
@[simp] theorem sendOp_fd_true : sendOp id data extended (some true) = .buildFd (extended.getD false) id data := rfl

/-! ## An omitted `extended` (R6, R133) -/

theorem sendOp_extended_omitted : sendOp id data none fd = sendOp id data (some false) fd := by
  cases fd with
  | none => simp
  | some b => cases b <;> simp

/-- `send_raw` depends on `extended` and `fd` only through the operation it issues. -/
theorem sendRaw_eq_of_sendOp_eq {id : Word} {data : Bytes} {extended extended' fd fd' : Option Bool}
    (h : sendOp id data extended fd = sendOp id data extended' fd') (opens writes : Bool) (s : State) :
    sendRaw opens writes id data extended fd s = sendRaw opens writes id data extended' fd' s := by
  unfold sendRaw
  rw [h]

theorem sendRaw_extended_omitted (opens writes : Bool) (s : State) :
    sendRaw opens writes id data none fd s = sendRaw opens writes id data (some false) fd s :=
  sendRaw_eq_of_sendOp_eq (sendOp_extended_omitted id data fd) opens writes s

/-- `send_with_dbc` hands `extended` to `send_raw` as it is (R150), so omitting it means the same there. -/
theorem sendWithDbc_extended_omitted (opens writes : Bool) (cat : Catalog) (name : Name) (values : ValueMap)
    (s : State) :
    sendWithDbc opens writes cat name values none fd s =
      sendWithDbc opens writes cat name values (some false) fd s := by
  unfold sendWithDbc
  cases encodeCan cat name values s with
  | error e => rfl
  | ok encoded => exact sendRaw_extended_omitted _ _ fd opens writes encoded.2

/-- Settles O59: the operation by `fd`, then the two calls with `extended` omitted. -/
theorem sendRawDefaults : Obligations.SendRawDefaults := by
  unfold Obligations.SendRawDefaults
  refine ⟨fun id data e => ?operation, fun opens writes cat name values id data fd s => ⟨?raw, ?dbc⟩⟩
  case operation => simp
  case raw => exact sendRaw_extended_omitted id data fd opens writes s
  case dbc => exact sendWithDbc_extended_omitted fd opens writes cat name values s

end Sys2Proof.Machine
end

/-! # The state of the block from step to step (10_state.md)

`step_next` says once what a step that goes on can have done; `Instr.served` is the state a served operation leaves.
The statements about `CFG`, the ports and the invariant follow from these two. -/

namespace Sys2Proof

/-! ## The descriptor checks as propositions (R29) -/

theorem DbcSignal.wellFormed_iff (sig : DbcSignal) :
    sig.wellFormed = true ↔ 1 ≤ sig.length ∧ sig.length ≤ 64 ∧ sig.factor ≠ 0 := by
  simp [DbcSignal.wellFormed, Config.sigLenMin, Config.sigLenMax, and_assoc]

theorem DbcMessage.wellFormed_iff (msg : DbcMessage) :
    msg.wellFormed = true ↔
      msg.dlc ≤ 64 ∧ ∀ sig ∈ msg.signals, 1 ≤ sig.length ∧ sig.length ≤ 64 ∧ sig.factor ≠ 0 := by
  simp [DbcMessage.wellFormed, Config.payloadMax, DbcSignal.wellFormed_iff]

theorem Instr.wellFormed_iff (i : Instr) :
    i.wellFormed = true ↔ i.presentable = true ∧ i.descriptorOk = true := by
  simp [Instr.wellFormed]

end Sys2Proof

namespace Sys2Proof.Machine

/-! ## One step -/

theorem step_of_requests {s : State} {r : Request} {rest : List Request} (hr : s.requests = r :: rest) :
    step s = serve r { s with requests := rest } := by
  simp [step, fetch_cons hr]

theorem serve_of_decode_ok {r : Request} {i : Instr} (hd : decode r = .ok i) (hp : i.presentable = true) (s : State) :
    serve r s = exec i s := by
  simp [serve, hd, hp]

theorem serve_of_decode_error {r : Request} {e : Illegal} (hd : decode r = .error e) (s : State) :
    serve r s = .next (answered s (.error .illegalRequest)) := by
  simp [serve, hd]

/-- The state an operation leaves: the next `CFG`, the later requests, and its response (R13, R21). -/
def served (i : Instr) (s : State) (rest : List Request) : State :=
  { cfg := cfgAfter i s.cfg, requests := rest, response := some (responseOf (resultOf i s.cfg)) }

@[simp] theorem served_cfg (i : Instr) (s : State) (rest : List Request) :
    (served i s rest).cfg = cfgAfter i s.cfg := rfl
@[simp] theorem served_requests (i : Instr) (s : State) (rest : List Request) : (served i s rest).requests = rest := rfl
@[simp] theorem served_response (i : Instr) (s : State) (rest : List Request) :
    (served i s rest).response = some (responseOf (resultOf i s.cfg)) := rfl

/-- An illegal header is answered, and the later requests stand first (R132, R190). -/
theorem step_illegal {s : State} {r : Request} {rest : List Request} {e : Illegal} (hr : s.requests = r :: rest)
    (hd : decode r = .error e) :
    step s = .next (answered { s with requests := rest } (.error .illegalRequest)) := by
  rw [step_of_requests hr, serve_of_decode_error hd]

/-- A well-formed request is served (R13). -/
theorem step_wellFormed {s : State} {r : Request} {rest : List Request} {i : Instr} (hr : s.requests = r :: rest)
    (hd : decode r = .ok i) (hw : i.wellFormed = true) : step s = .next (served i s rest) := by
  obtain ⟨hp, hok⟩ := i.wellFormed_iff.1 hw
  rw [step_of_requests hr, serve_of_decode_ok hd hp, exec_eq, if_pos hok]
  rfl

/-- What a step that goes on did: nothing without a request (R192), or it answered an illegal header (R132), or it
served a well-formed operation (R13). -/
theorem step_next {s t : State} (h : step s = .next t) :
    (s.requests = [] ∧ t = s) ∨
    (∃ r rest e, s.requests = r :: rest ∧ decode r = .error e ∧
      t = answered { s with requests := rest } (.error .illegalRequest)) ∨
    (∃ r rest i, s.requests = r :: rest ∧ decode r = .ok i ∧ i.wellFormed = true ∧ t = served i s rest) := by
  rcases step_cases s with ⟨hr, hs⟩ | ⟨r, rest, hr, hs⟩
  · rw [hs] at h
    exact .inl ⟨hr, (Host.Outcome.next.inj h).symm⟩
  rw [hs] at h
  rcases serve_cases r { s with requests := rest } with ⟨e, hd, hv⟩ | ⟨i, _, _, hv⟩ | ⟨i, hd, hp, hv⟩
  · rw [hv] at h
    exact .inr (.inl ⟨r, rest, e, hr, hd, (Host.Outcome.next.inj h).symm⟩)
  · rw [hv] at h
    cases h
  · rw [hv] at h
    obtain ⟨hok, ht⟩ := exec_next h
    exact .inr (.inr ⟨r, rest, i, hr, hd, i.wellFormed_iff.2 ⟨hp, hok⟩, ht⟩)

/-- An illegal or well-formed request gets a response and leaves the later ones first (R13, R190). -/
theorem step_answers {s : State} {r : Request} {rest : List Request} (hr : s.requests = r :: rest)
    (hw : ∀ i, decode r = .ok i → i.wellFormed = true) :
    ∃ t x, step s = .next t ∧ t.requests = rest ∧ t.response = some x := by
  cases hd : decode r with
  | error e => exact ⟨_, _, step_illegal hr hd, rfl, rfl⟩
  | ok i => exact ⟨_, _, step_wellFormed hr hd (hw i hd), rfl, rfl⟩

/-- Settles O49: the fetch takes the request, and serving a presentable one is running it. -/
theorem stepRunsDecodedRequest : Obligations.StepRunsDecodedRequest := by
  unfold Obligations.StepRunsDecodedRequest
  intro s r rest i hr hd hp
  rw [step_of_requests hr, serve_of_decode_ok hd hp]

/-- Settles O52: `step_answers` for the one instruction the request decodes to. -/
theorem everyWellFormedRequestIsAnswered : Obligations.EveryWellFormedRequestIsAnswered := by
  unfold Obligations.EveryWellFormedRequestIsAnswered
  intro s r rest i hr hd hw
  refine step_answers hr fun j hj => ?_
  obtain rfl : i = j := Except.ok.inj (hd.symm.trans hj)
  exact hw

/-- Settles O51: an illegal header is answered alike in both states, and what an operation answers is a function of
`CFG` and its operands (`served`). -/
theorem responseDependsOnCfgAndRequest : Obligations.ResponseDependsOnCfgAndRequest := by
  unfold Obligations.ResponseDependsOnCfgAndRequest
  intro s s' t r rest rest' hr hr' hcfg h
  rcases step_next h with ⟨hnil, _⟩ | ⟨r₁, rest₁, e, hr₁, hd, rfl⟩ | ⟨r₁, rest₁, i, hr₁, hd, hw, rfl⟩
  · rw [hr] at hnil
    cases hnil
  · obtain ⟨rfl, rfl⟩ : r = r₁ ∧ rest = rest₁ := List.cons.inj (hr.symm.trans hr₁)
    exact ⟨_, step_illegal hr' hd, hcfg.symm, rfl, rfl, rfl⟩
  · obtain ⟨rfl, rfl⟩ : r = r₁ ∧ rest = rest₁ := List.cons.inj (hr.symm.trans hr₁)
    exact ⟨_, step_wellFormed hr' hd hw, by simp [hcfg], by simp [hcfg], rfl, rfl⟩

/-! ## A whole run -/

theorem core_run_succ {s t : State} (h : step s = .next t) (n : Nat) :
    Sys2Proof.core.run (n + 1) s = Sys2Proof.core.run n t := by
  have hc : Sys2Proof.core.step s = .next t := h
  simp [Host.Core.run, hc]

theorem run_serves {requests : List Request} (hw : ∀ r ∈ requests, ∀ i, decode r = .ok i → i.wellFormed = true)
    {s : State} (hs : s.requests = requests) :
    ∃ t : State, Sys2Proof.core.run requests.length s = .next t ∧ t.requests = [] := by
  induction requests generalizing s with
  | nil => exact ⟨s, rfl, hs⟩
  | cons r rest ih =>
    obtain ⟨t, _, ht, hrest, _⟩ := step_answers hs (hw r List.mem_cons_self)
    obtain ⟨u, hu, hempty⟩ := ih (fun r' hr' => hw r' (List.mem_cons_of_mem r hr')) hrest
    exact ⟨u, (core_run_succ ht rest.length).trans hu, hempty⟩

/-- Settles O53, by induction on the list of requests. -/
theorem runServesEveryRequest : Obligations.RunServesEveryRequest := by
  unfold Obligations.RunServesEveryRequest
  intro s hw
  exact run_serves hw rfl

/-! ## Refusal of ill-formed descriptors (R29) -/

theorem exec_refused {i : Instr} (s : State) (h : i.descriptorOk = false) :
    exec i s = .refused .illFormedDescriptor := by
  simp [exec_eq, h]

/-- Settles O43: for each of the six operations `descriptorOk` is the check of the descriptor it carries. -/
theorem illFormedDescriptorIsRefused : Obligations.IllFormedDescriptorIsRefused := by
  unfold Obligations.IllFormedDescriptorIsRefused
  constructor
  · intro s sig raw phys dlc pl h
    have hbad : sig.wellFormed = false := by rwa [← DbcSignal.wellFormed_iff, Bool.not_eq_true] at h
    exact ⟨exec_refused s hbad, exec_refused s hbad, exec_refused s hbad, exec_refused s hbad⟩
  · intro s msg values pl h
    have hbad : msg.wellFormed = false := by rwa [← DbcMessage.wellFormed_iff, Bool.not_eq_true] at h
    exact ⟨exec_refused s hbad, exec_refused s hbad⟩

/-! ## The control register (R14, R130, R131) -/

theorem cfgRead_toNat (cfg : Word) : (cfgRead cfg).toNat = cfg.toNat % 4 := by
  rw [cfgRead, BitVec.toNat_and, show cfgFields.toNat = 2 ^ 2 - 1 from rfl, Nat.and_two_pow_sub_one_eq_mod]

/-- What is read after a write is what was written, cut to the fields: the reserved bits of both are masked out. -/
theorem cfgRead_cfgWrite (cfg value : Word) : cfgRead (cfgWrite cfg value) = cfgRead value := by
  ext k hk
  simp only [cfgRead, cfgWrite, BitVec.getElem_and, BitVec.getElem_or, BitVec.getElem_not]
  cases cfgFields[k] <;> simp

/-- A write leaves the reserved bits as they are (log entry 11). -/
theorem cfgWrite_reserved (cfg value : Word) : (cfgWrite cfg value).extractLsb' 2 30 = cfg.extractLsb' 2 30 := by
  have hnot : (~~~cfgFields).extractLsb' 2 30 = BitVec.allOnes 30 := by decide
  have hfields : cfgFields.extractLsb' 2 30 = 0#30 := by decide
  simp only [cfgWrite, BitVec.extractLsb'_or, BitVec.extractLsb'_and, hnot, hfields, BitVec.and_allOnes, BitVec.and_zero,
    BitVec.or_zero]

theorem cfgAfter_reserved (i : Instr) (cfg : Word) : (cfgAfter i cfg).extractLsb' 2 30 = cfg.extractLsb' 2 30 := by
  cases i with
  | cfgWr value => exact cfgWrite_reserved cfg value
  | _ => rfl

/-- CFG.WR alone writes `CFG` (R14). -/
theorem eq_cfgWr_of_cfgAfter_ne {i : Instr} {cfg : Word} (h : cfgAfter i cfg ≠ cfg) : ∃ value, i = .cfgWr value := by
  cases i with
  | cfgWr value => exact ⟨value, rfl⟩
  | _ => exact absurd rfl h

/-- Settles O5: the value read depends on the written value alone (`cfgRead_cfgWrite`). -/
theorem cfgRdAfterCfgWr : Obligations.CfgRdAfterCfgWr := by
  unfold Obligations.CfgRdAfterCfgWr
  intro s t value h
  obtain ⟨_, ht⟩ := exec_next h
  have hcfg : t.cfg = cfgWrite s.cfg value := by rw [ht]; rfl
  refine ⟨cfgRead t.cfg, rfl, ?_⟩
  rw [hcfg, cfgRead_cfgWrite, cfgRead_toNat]

/-- Settles O6: of the ways a step goes on only a served operation changes `CFG`, and that one is CFG.WR. -/
theorem onlyCfgWrWritesCfg : Obligations.OnlyCfgWrWritesCfg := by
  unfold Obligations.OnlyCfgWrWritesCfg
  intro s t h hne
  rcases step_next h with ⟨_, rfl⟩ | ⟨r, rest, e, _, _, rfl⟩ | ⟨r, rest, i, hr, hd, _, rfl⟩
  · exact absurd rfl hne
  · exact absurd rfl hne
  · obtain ⟨value, rfl⟩ := eq_cfgWr_of_cfgAfter_ne hne
    exact ⟨r, rest, value, hr, hd, rfl⟩

/-! ## The range of each kind of result (R19, R21, R28, R70, R74) -/

theorem exists_of_map_eq_ok {α : Type} {f : α → Result} {x : Except ErrorKind α} {r : Result} (h : x.map f = .ok r) :
    ∃ a, x = .ok a ∧ f a = r := by
  cases x with
  | error e => cases h
  | ok a => exact ⟨a, rfl, Except.ok.inj h⟩

/-- The layout of `build_ok` is that of R50 and R51: a DLC byte within its form's limit, then zeros where no data is. -/
theorem builtBuffer_of_layout {word data : Bytes} {fd : Bool} (hword : word.length = 4)
    (h : data.length ≤ formLimit fd) :
    builtBuffer (word ++ [BitVec.ofNat 8 data.length, 0, 0, 0] ++ data ++ zeros (formLimit fd - data.length)) := by
  obtain ⟨a, b, c, d, rfl⟩ : ∃ a b c d, word = [a, b, c, d] := by
    match word, hword with
    | [a, b, c, d], _ => exact ⟨a, b, c, d, rfl⟩
  have hlimit : formLimit fd = 8 ∧ fd = false ∨ formLimit fd = 64 ∧ fd = true := by cases fd <;> simp
  have hdlc : (BitVec.ofNat 8 data.length).toNat = data.length := by
    rw [BitVec.toNat_ofNat]; omega
  have hpad : ∀ x ∈ zeros (formLimit fd - data.length), x = 0 := fun x hx => List.eq_of_mem_replicate hx
  refine ⟨?form, rfl, rfl, rfl, ?padding⟩
  case form =>
    simp only [List.cons_append, List.nil_append, List.length_cons, List.length_append, zeros_length,
      List.getD_cons_succ, List.getD_cons_zero, hdlc]
    omega
  case padding =>
    simp only [List.cons_append, List.nil_append, List.getD_cons_succ, List.getD_cons_zero, hdlc, Nat.add_comm 8,
      List.drop_succ_cons]
    simpa using hpad

theorem buildResult_inRange {fd ext : Bool} {id cfg : Word} {data : Bytes} {r : Result}
    (h : buildResult fd ext id data cfg = .ok r) : r.inRange := by
  obtain ⟨b, hb, rfl⟩ := exists_of_map_eq_ok h
  by_cases hlen : data.length ≤ formLimit fd
  · rw [build_ok hlen] at hb
    obtain rfl := Except.ok.inj hb
    exact builtBuffer_of_layout (bytesOf_length _ _) hlen
  · rw [build_error (Nat.lt_of_not_le hlen)] at hb
    cases hb

/-- A buffer of at most 72 bytes holds at most 64 data bytes, and a classic DLC is below 16 (R28, R53). -/
theorem parsedFrame_wireParse {buf : Bytes} (hbuf : buf.length ≤ 72) (little fd : Bool) :
    parsedFrame (wireParse little fd buf) := by
  refine ⟨Nat.mod_lt _ (by norm_num), ?_⟩
  cases fd <;>
  · simp only [wireParse, Bool.false_eq_true, if_false, if_true]
    split
    · simp only [List.length_take, List.length_drop]
      omega
    · simp

theorem parseResult_inRange {choice : FormChoice} {buf : Bytes} {cfg : Word} {r : Result} (hbuf : buf.length ≤ 72)
    (h : parseResult choice buf cfg = .ok r) : r.inRange := by
  obtain ⟨f, hf, rfl⟩ := exists_of_map_eq_ok h
  by_cases hlen : 8 ≤ buf.length
  · rw [parse_ok hlen] at hf
    obtain rfl := Except.ok.inj hf
    exact parsedFrame_wireParse hbuf _ _
  · rw [parse_error (Nat.lt_of_not_le hlen)] at hf
    cases hf

theorem packResult_inRange {sig : DbcSignal} {raw : Int} {dlc : Nat} {pl : Bytes} {r : Result} (hpl : pl.length ≤ 64)
    (h : (packRaw sig raw dlc pl).map Result.pl = .ok r) : r.inRange := by
  obtain ⟨out, hout, rfl⟩ := exists_of_map_eq_ok h
  exact (packRaw_length hout).trans_le hpl

/-- A raw value of a signal of at most 64 bits has at most 64 bits (R100). -/
theorem holdsRaw_bounds {sig : DbcSignal} {pl : Bytes} {v : Int} (hlen : sig.length ≤ 64) (h : holdsRaw sig pl v) :
    -(2 ^ 63) ≤ v ∧ v < 2 ^ 64 := by
  obtain ⟨_, hunsigned, hsigned⟩ := h
  have hpow : (2 : Int) ^ sig.length ≤ 2 ^ 64 := pow_le_pow_right₀ (by norm_num) hlen
  have hpow' : (2 : Int) ^ (sig.length - 1) ≤ 2 ^ 63 := pow_le_pow_right₀ (by norm_num) (by omega)
  cases hs : sig.sign with
  | unsigned =>
    obtain ⟨hlo, hhi⟩ := hunsigned hs
    omega
  | signed =>
    obtain ⟨hlo, hhi⟩ := hsigned hs
    omega

theorem unpackResult_inRange {sig : DbcSignal} {pl : Bytes} {r : Result} (hsig : sig.wellFormed = true)
    (h : (unpackRaw sig pl).map Result.raw = .ok r) : r.inRange := by
  obtain ⟨v, hv, rfl⟩ := exists_of_map_eq_ok h
  obtain ⟨hmin, hmax, _⟩ := sig.wellFormed_iff.1 hsig
  rcases unpackRaw_cases sig pl hmin with ⟨_, he⟩ | ⟨_, w, hw, hholds⟩
  · rw [hv] at he
    cases he
  · obtain rfl : v = w := Except.ok.inj (hv.symm.trans hw)
    exact holdsRaw_bounds hmax hholds

theorem msgEncodeResult_inRange {msg : DbcMessage} {values : ValueMap} {r : Result} (hmsg : msg.wellFormed = true)
    (h : (msgEncode msg values).map Result.data = .ok r) : r.inRange := by
  obtain ⟨out, hout, rfl⟩ := exists_of_map_eq_ok h
  obtain ⟨hdlc, _⟩ := msg.wellFormed_iff.1 hmsg
  calc out.length = (zeros msg.dlc).length := encodeSignals_length hout
    _ = msg.dlc := zeros_length _
    _ ≤ 64 := hdlc

theorem msgDecodeResult_inRange {msg : DbcMessage} {pl : Bytes} {r : Result}
    (h : (msgDecode msg pl).map Result.signals = .ok r) : r.inRange := by
  obtain ⟨m, hm, rfl⟩ := exists_of_map_eq_ok h
  exact decodeSignals_nodup (m := []) List.nodup_nil hm

/-- What a well-formed operation answers is in the range of its kind. -/
theorem resultOf_inRange {i : Instr} {cfg : Word} {r : Result} (hw : i.wellFormed = true)
    (h : resultOf i cfg = .ok r) : r.inRange := by
  obtain ⟨hp, hd⟩ := i.wellFormed_iff.1 hw
  cases i with
  | cfgWr value =>
    obtain rfl := Except.ok.inj h
    trivial
  | cfgRd =>
    obtain rfl := Except.ok.inj h
    show (cfgRead cfg).toNat < 4
    rw [cfgRead_toNat]
    omega
  | buildD ext id data => exact buildResult_inRange h
  | buildC ext id data => exact buildResult_inRange h
  | buildFd ext id data => exact buildResult_inRange h
  | parseAuto buf => exact parseResult_inRange (of_decide_eq_true hp) h
  | parseC buf => exact parseResult_inRange (of_decide_eq_true hp) h
  | parseFd buf => exact parseResult_inRange (of_decide_eq_true hp) h
  | sigPack sig raw dlc pl => exact packResult_inRange (of_decide_eq_true (Bool.and_eq_true_iff.1 hp).2) h
  | sigUnpack sig pl => exact unpackResult_inRange hd h
  | sigEnc sig phys dlc pl => exact packResult_inRange (of_decide_eq_true (Bool.and_eq_true_iff.1 hp).2) h
  | sigDec sig pl =>
    obtain ⟨v, _, rfl⟩ := exists_of_map_eq_ok h
    trivial
  | msgEnc msg values => exact msgEncodeResult_inRange hd h
  | msgDec msg pl => exact msgDecodeResult_inRange h

theorem responseOf_inRange {x : Except ErrorKind Result} (h : ∀ r, x = .ok r → r.inRange) :
    (responseOf x).inRange := by
  cases x with
  | ok r => exact h r rfl
  | error e => trivial

/-! ## The invariant -/

/-- The invariant of a state that has just answered. -/
theorem inv_of_response {s : State} {x : Response} (hcfg : s.cfg.extractLsb' 2 30 = 0#30) (hs : s.response = some x)
    (hx : x.inRange) : s.Inv := by
  refine ⟨hcfg, fun r hr => ?_⟩
  obtain rfl : x = r := Option.some.inj (hs.symm.trans hr)
  exact hx

/-- Settles O54: the register is zero and nothing has been answered (R27). -/
theorem resetSatisfiesInvariant : Obligations.ResetSatisfiesInvariant := by
  unfold Obligations.ResetSatisfiesInvariant
  refine ⟨by decide, fun r hr => ?_⟩
  rw [reset_response] at hr
  cases hr

/-- Settles O55: no operation touches the reserved bits, an error carries a code alone, and a result is in the range of
its kind. -/
theorem stepKeepsInvariant : Obligations.StepKeepsInvariant := by
  unfold Obligations.StepKeepsInvariant
  intro s t hinv h
  have ⟨hcfg, _⟩ := hinv
  rcases step_next h with ⟨_, rfl⟩ | ⟨r, rest, e, _, _, rfl⟩ | ⟨r, rest, i, _, _, hw, rfl⟩
  · exact hinv
  · exact inv_of_response hcfg rfl trivial
  · exact inv_of_response ((cfgAfter_reserved i s.cfg).trans hcfg) rfl
      (responseOf_inRange fun _ hr => resultOf_inRange hw hr)

end Sys2Proof.Machine

/-! # The byte order of a built frame (20_memory.md)

A frame is the identifier word followed by bytes no byte order reaches (`wireFrame_take`, `wireFrame_drop`). -/

namespace Sys2Proof.Machine

/-- BUILD.FD answers the frame of R51 in the byte order of `CFG.ENDIAN`, and the rest of the state stays (R72). -/
theorem exec_buildFd_ok {data : Bytes} (h : data.length ≤ 64) (ext : Bool) (id : Word) (s : State) :
    exec (.buildFd ext id data) s =
      .next (answered s (.ok (.bytes (wireFrame (s.cfg.getLsbD 0) ext id.toNat data 64)))) := by
  have hresult : resultOf (.buildFd ext id data) s.cfg =
      .ok (.bytes (wireFrame (s.cfg.getLsbD 0) ext id.toNat data 64)) :=
    congrArg (Except.map Result.bytes) (build_wireFrame (fd := true) h id ext s.cfg)
  rw [exec_eq, hresult]
  rfl

/-- The other byte order writes the same digits in reverse (R32, R33). -/
theorem idBytes_not (little : Bool) (w : Nat) : idBytes (!little) w = (idBytes little w).reverse := by
  cases little <;> simp [idBytes]

theorem wireFrame_take (little ext : Bool) (id : Nat) (data : Bytes) (field : Nat) :
    (wireFrame little ext id data field).take 4 = idBytes little (builtWord ext id) := by
  simp only [wireFrame, List.append_assoc]
  exact List.take_left' (idBytes_length _ _)

/-- DLC, reserved bytes, data and padding are written byte by byte, in no byte order (R34). -/
theorem wireFrame_drop (little ext : Bool) (id : Nat) (data : Bytes) (field : Nat) :
    (wireFrame little ext id data field).drop 4 =
      [BitVec.ofNat 8 data.length, 0, 0, 0] ++ data ++ zeros (field - data.length) := by
  simp only [wireFrame, List.append_assoc]
  exact List.drop_left' (idBytes_length _ _)

/-- Settles O17: both states answer the frame of R51, whose first four bytes are the identifier word's. -/
theorem byteOrderReachesIdentifierOnly : Obligations.ByteOrderReachesIdentifierOnly := by
  unfold Obligations.ByteOrderReachesIdentifierOnly
  intro s s' ext id data hlen hne
  have horder : s'.cfg.getLsbD 0 = !s.cfg.getLsbD 0 := Bool.eq_not.2 hne
  refine ⟨_, _, exec_buildFd_ok hlen ext id s, exec_buildFd_ok hlen ext id s', ?identifier, ?rest⟩
  case identifier => rw [wireFrame_take, wireFrame_take, horder, idBytes_not]
  case rest => rw [wireFrame_drop, wireFrame_drop]

end Sys2Proof.Machine

/-! # Request encoding (30_encoding.md)

The legal headers are the `headerWord op ext` in which `EXT` is set only where the operation takes it: a row of the
operation map selects no other header (`exists_headerWord_of_and_mask`), and each of them selects its own operation
(`selectOp_headerWord`, `decode_headerWord`). -/

namespace Sys2Proof

/-! ## The rows of the operation map (R60) -/

/-- The mask of an operation's row in R60: bit 8 is free where the operation takes `EXT`. -/
def Op.mask (op : Op) : Word := if op.takesExt then 0xFFFFFEFF#32 else 0xFFFFFFFF#32

/-- The row of an operation in R60. -/
def Op.row (op : Op) : OpRow := ⟨op, op.pattern, op.mask⟩

/-- `opTable` is R60's map: its rows are the operations' own. -/
theorem eq_row_of_mem_opTable : ∀ row ∈ opTable, row = row.op.row := by decide

theorem Op.row_selects_iff (op : Op) (h : Word) : op.row.selects h = true ↔ h &&& op.mask = op.pattern := by
  simp [OpRow.selects, Op.row]

/-- A word is its bits outside bit 8 together with bit 8. -/
theorem and_mask_or_bit8 (h : Word) :
    (h &&& 0xFFFFFEFF#32) ||| (if headerExt h then 0x00000100#32 else 0#32) = h := by
  have hbit : h &&& 0x00000100#32 = if headerExt h then 0x00000100#32 else 0#32 := BitVec.and_twoPow h 8
  have hmask : 0xFFFFFEFF#32 ||| 0x00000100#32 = BitVec.allOnes 32 := by decide
  rw [← hbit, ← BitVec.and_or_distrib_left, hmask, BitVec.and_allOnes]

/-- A header that a row selects is the operation's pattern, with `EXT` free only where the operation takes it. -/
theorem exists_headerWord_of_and_mask {op : Op} {h : Word} (hm : h &&& op.mask = op.pattern) :
    ∃ ext, (ext = true → op.takesExt = true) ∧ h = headerWord op ext := by
  cases ht : op.takesExt with
  | true =>
    have hmask : op.mask = 0xFFFFFEFF#32 := if_pos ht
    refine ⟨headerExt h, fun _ => rfl, ?_⟩
    rw [headerWord, ← hm, hmask, and_mask_or_bit8]
  | false =>
    have hmask : op.mask = BitVec.allOnes 32 := if_neg (Bool.eq_false_iff.1 ht)
    refine ⟨false, nofun, ?_⟩
    rw [headerWord, ← hm, hmask, BitVec.and_allOnes, if_neg Bool.false_ne_true, BitVec.or_zero]

/-- What a header decodes to whose row is the operation's (R60). -/
theorem decode_of_and_mask (op : Op) {h : Word} (b : Body) (hm : h &&& op.mask = op.pattern) :
    decode ⟨h, b⟩ = .ok (op.withOperands (headerExt h) b) := by
  obtain ⟨ext, hext, rfl⟩ := exists_headerWord_of_and_mask hm
  rw [decode_headerWord op ext hext, headerExt_headerWord]

/-- A row of the map that selects a header names the operation the decoder selects. -/
theorem selectOp_of_row_selects {row : OpRow} {h : Word} (hrow : row ∈ opTable) (hs : row.selects h = true) :
    selectOp h = some row.op := by
  rw [eq_row_of_mem_opTable row hrow] at hs
  obtain ⟨ext, hext, rfl⟩ := exists_headerWord_of_and_mask ((row.op.row_selects_iff h).1 hs)
  exact selectOp_headerWord row.op ext hext

/-- The headers that select an operation (R59, R61). -/
theorem selectOp_eq_some_iff {op : Op} {h : Word} :
    selectOp h = some op ↔ ∃ ext, (ext = true → op.takesExt = true) ∧ h = headerWord op ext := by
  constructor
  · intro hs
    obtain ⟨row, hrow, rfl, hsel⟩ := selectOp_some hs
    rw [eq_row_of_mem_opTable row hrow] at hsel
    exact exists_headerWord_of_and_mask ((row.op.row_selects_iff h).1 hsel)
  · rintro ⟨ext, hext, rfl⟩
    exact selectOp_headerWord op ext hext

/-- A request that decodes has a legal header, and its operands are those of R20. -/
theorem decode_ok_inv {r : Request} {i : Instr} (h : decode r = .ok i) :
    ∃ op ext, (ext = true → op.takesExt = true) ∧ r.header = headerWord op ext ∧ i = op.withOperands ext r.body := by
  unfold decode at h
  cases hs : selectOp r.header with
  | none =>
    rw [hs] at h
    cases h
  | some op =>
    rw [hs] at h
    obtain ⟨ext, hext, hheader⟩ := selectOp_eq_some_iff.1 hs
    refine ⟨op, ext, hext, hheader, ?_⟩
    rw [← Except.ok.inj h, hheader, headerExt_headerWord]

/-! ## The header fields of an instruction (R59) -/

/-- The operation an instruction asks for. -/
def Instr.op : Instr → Op
  | .cfgWr _ => .cfgWr
  | .cfgRd => .cfgRd
  | .buildD _ _ _ => .buildD
  | .buildC _ _ _ => .buildC
  | .buildFd _ _ _ => .buildFd
  | .parseAuto _ => .parseAuto
  | .parseC _ => .parseC
  | .parseFd _ => .parseFd
  | .sigPack _ _ _ _ => .sigPack
  | .sigUnpack _ _ => .sigUnpack
  | .sigEnc _ _ _ _ => .sigEnc
  | .sigDec _ _ => .sigDec
  | .msgEnc _ _ => .msgEnc
  | .msgDec _ _ => .msgDec

/-- The field `EXT` of an instruction: its operand in the three BUILDs, zero elsewhere. -/
def Instr.extField : Instr → Bool
  | .buildD ext _ _ | .buildC ext _ _ | .buildFd ext _ _ => ext
  | _ => false

theorem Instr.takesExt_of_extField (i : Instr) (h : i.extField = true) : i.op.takesExt = true := by
  cases i with
  | buildD | buildC | buildFd => rfl
  | _ => cases h

theorem encode_header (i : Instr) : (encode i).header = headerWord i.op i.extField := by
  cases i <;> rfl

/-- The encoding's body holds the operands the operation reads. -/
theorem withOperands_encode (i : Instr) : i.op.withOperands i.extField (encode i).body = i := by
  cases i <;> rfl

@[simp] theorem Op.withOperands_op (op : Op) (ext : Bool) (b : Body) : (op.withOperands ext b).op = op := by
  cases op <;> rfl

@[simp] theorem Op.withOperands_extField (op : Op) (ext : Bool) (b : Body) :
    (op.withOperands ext b).extField = (ext && op.takesExt) := by
  cases op with
  | buildD | buildC | buildFd => exact (Bool.and_true ext).symm
  | _ => exact (Bool.and_false ext).symm

/-! ## The statements of the family -/

/-- Settles O46: the encoding has the header of the instruction's operation, and its body holds the operands. -/
theorem decodeInvertsEncode : Obligations.DecodeInvertsEncode := by
  unfold Obligations.DecodeInvertsEncode
  intro i
  calc decode (encode i)
      = decode ⟨headerWord i.op i.extField, (encode i).body⟩ := by rw [← encode_header]
    _ = .ok (i.op.withOperands i.extField (encode i).body) := decode_headerWord _ _ i.takesExt_of_extField _
    _ = .ok i := by rw [withOperands_encode]

/-- Settles O44: each clause is `decode_of_and_mask` at the row's operation. -/
theorem operationMapSelects : Obligations.OperationMapSelects := by
  unfold Obligations.OperationMapSelects
  intro h b
  exact ⟨decode_of_and_mask .cfgWr b, decode_of_and_mask .cfgRd b,
    decode_of_and_mask .buildD b, decode_of_and_mask .buildC b, decode_of_and_mask .buildFd b,
    decode_of_and_mask .parseAuto b, decode_of_and_mask .parseC b, decode_of_and_mask .parseFd b,
    decode_of_and_mask .sigPack b, decode_of_and_mask .sigUnpack b, decode_of_and_mask .sigEnc b,
    decode_of_and_mask .sigDec b, decode_of_and_mask .msgEnc b, decode_of_and_mask .msgDec b⟩

/-- Settles O45: both rows name the one operation the decoder selects, and an operation has one row. -/
theorem operationMapIsUnambiguous : Obligations.OperationMapIsUnambiguous := by
  unfold Obligations.OperationMapIsUnambiguous
  intro h a b ha hb hsa hsb
  have hop : a.op = b.op :=
    Option.some.inj ((selectOp_of_row_selects ha hsa).symm.trans (selectOp_of_row_selects hb hsb))
  rw [eq_row_of_mem_opTable a ha, eq_row_of_mem_opTable b hb, hop]

/-- Settles O47: a header that decodes is the operation's pattern and `EXT`, which the encoding writes again. -/
theorem encodeInvertsDecodeOnHeaders : Obligations.EncodeInvertsDecodeOnHeaders := by
  unfold Obligations.EncodeInvertsDecodeOnHeaders
  intro r i hd
  obtain ⟨op, ext, hext, hheader, rfl⟩ := decode_ok_inv hd
  have hkept : (ext && op.takesExt) = ext := Bool.and_eq_left_iff_imp.2 hext
  rw [encode_header, Op.withOperands_op, Op.withOperands_extField, hkept, hheader]

/-- A table word whose header selects an operation asks for it over the blank body. -/
theorem decodeTableWord_of_some {w : Nat} {op : Op} (h : selectOp (tableRequest 32 w).header = some op) :
    decodeTableWord 32 w = some (op.withOperands (headerExt (tableRequest 32 w).header) Body.blank) := by
  have hd : decode (tableRequest 32 w) =
      .ok (op.withOperands (headerExt (tableRequest 32 w).header) Body.blank) := by
    simp only [decode, h]
    rfl
  simp [decodeTableWord, hd]

theorem decodeTableWord_of_none {w : Nat} (h : selectOp (tableRequest 32 w).header = none) :
    decodeTableWord 32 w = none := by
  simp [decodeTableWord, decode, h]

/-- Settles O48: what each header selects in the operation map, or that it selects nothing. -/
theorem sampleHeadersDecode : Obligations.SampleHeadersDecode := by
  unfold Obligations.SampleHeadersDecode
  exact ⟨decodeTableWord_of_some (op := .cfgWr) (by decide), decodeTableWord_of_some (op := .buildFd) (by decide),
    decodeTableWord_of_some (op := .buildD) (by decide), decodeTableWord_of_none (by decide),
    decodeTableWord_of_none (by decide), decodeTableWord_of_none (by decide), decodeTableWord_of_none (by decide)⟩

end Sys2Proof

/-! # The frame codec (40_frame_codec.md)

Each BUILD answers `wireFrame` and each PARSE answers `wireParse`, or one error (`exec_sendOp_ok`, `exec_parseOp_ok`).
The properties of the codec are then facts about these two layouts: what a parse reads from a frame as built
(`wireParse_wireFrame`), and where `EFF` stands in it (`bitRead_wireFrame_ext`). -/

namespace Sys2Proof.Machine

/-! ## What BUILD answers (R71 to R73)

`sendOp` names the three BUILDs by their form (R65): `none` is BUILD.D, `some false` BUILD.C and `some true` BUILD.FD. -/

theorem exec_sendOp (id : Word) (data : Bytes) (ext : Bool) (fd : Option Bool) (s : State) :
    exec (sendOp id data (some ext) fd) s = deliver (buildResult (fd.getD (cfgFd s.cfg)) ext id data s.cfg) s := by
  rcases fd with _ | _ | _ <;> rfl

/-- BUILD answers the frame of R50 or R51 when the data fits its form. -/
theorem exec_sendOp_ok {data : Bytes} {fd : Option Bool} {s : State}
    (h : data.length ≤ formLimit (fd.getD (cfgFd s.cfg))) (id : Word) (ext : Bool) :
    exec (sendOp id data (some ext) fd) s = .next (answered s (.ok (.bytes
      (wireFrame (s.cfg.getLsbD 0) ext id.toNat data (formLimit (fd.getD (cfgFd s.cfg))))))) := by
  rw [exec_sendOp, buildResult, build_wireFrame h]
  rfl

/-- BUILD answers `InvalidLength` when the data does not fit its form. -/
theorem exec_sendOp_error {data : Bytes} {fd : Option Bool} {s : State}
    (h : formLimit (fd.getD (cfgFd s.cfg)) < data.length) (id : Word) (ext : Bool) :
    exec (sendOp id data (some ext) fd) s = .next (answered s (.error .invalidLength)) := by
  rw [exec_sendOp, buildResult, build_error h]
  rfl

/-- Settles O7: BUILD.C is `sendOp` with the form classic. -/
theorem buildCRule : Obligations.BuildCRule := by
  unfold Obligations.BuildCRule
  refine ⟨fun ext => decode_headerWord .buildC ext fun _ => rfl,
    fun s ext id data => ⟨fun hfits => ?_, fun hlong => ?_⟩⟩
  · exact exec_sendOp_ok (fd := some false) hfits id ext
  · exact exec_sendOp_error (fd := some false) hlong id ext

/-- Settles O8: BUILD.FD is `sendOp` with the form FD. -/
theorem buildFdRule : Obligations.BuildFdRule := by
  unfold Obligations.BuildFdRule
  refine ⟨fun ext => decode_headerWord .buildFd ext fun _ => rfl,
    fun s ext id data => ⟨fun hfits => ?_, fun hlong => ?_⟩⟩
  · exact exec_sendOp_ok (fd := some true) hfits id ext
  · exact exec_sendOp_error (fd := some true) hlong id ext

/-- Settles O9: the form is the default one, and the field's size is the form's limit. -/
theorem buildDRule : Obligations.BuildDRule := by
  unfold Obligations.BuildDRule
  refine ⟨fun ext => decode_headerWord .buildD ext fun _ => rfl, fun s ext id data field hfield => ?_⟩
  obtain rfl : field = formLimit (cfgFd s.cfg) := hfield
  exact ⟨fun hfits => exec_sendOp_ok (fd := none) hfits id ext, fun hlong => exec_sendOp_error (fd := none) hlong id ext⟩

/-! ## What PARSE answers (R75 to R77) -/

theorem exec_parseOp (choice : FormChoice) (buf : Bytes) (s : State) :
    exec (parseOp choice buf) s = deliver (parseResult choice buf s.cfg) s := by
  cases choice <;> rfl

/-- PARSE answers the frame that a buffer of 8 or more bytes holds, in the form chosen. -/
theorem exec_parseOp_ok {buf : Bytes} (h : 8 ≤ buf.length) (choice : FormChoice) (s : State) :
    exec (parseOp choice buf) s =
      .next (answered s (.ok (.frame (wireParse (s.cfg.getLsbD 0) (usesFd choice buf.length) buf)))) := by
  rw [exec_parseOp, parseResult, parse_ok h]
  rfl

/-- PARSE answers `Incomplete` on a shorter buffer. -/
theorem exec_parseOp_error {buf : Bytes} (h : buf.length < 8) (choice : FormChoice) (s : State) :
    exec (parseOp choice buf) s = .next (answered s (.error .incomplete)) := by
  rw [exec_parseOp, parseResult, parse_error h]
  rfl

/-- Settles O10: the form is by the buffer's length (`usesFd .auto`). -/
theorem parseAutoRule : Obligations.ParseAutoRule := by
  unfold Obligations.ParseAutoRule
  exact ⟨fun b => decode_headerWord .parseAuto false nofun b,
    fun s _ => ⟨fun hlong => exec_parseOp_ok hlong .auto s, fun hshort => exec_parseOp_error hshort .auto s⟩⟩

/-- Settles O11: the form is classic. -/
theorem parseCRule : Obligations.ParseCRule := by
  unfold Obligations.ParseCRule
  exact ⟨fun b => decode_headerWord .parseC false nofun b,
    fun s _ => ⟨fun hlong => exec_parseOp_ok hlong .classic s, fun hshort => exec_parseOp_error hshort .classic s⟩⟩

/-- Settles O12: the form is FD. -/
theorem parseFdRule : Obligations.ParseFdRule := by
  unfold Obligations.ParseFdRule
  exact ⟨fun b => decode_headerWord .parseFd false nofun b,
    fun s _ => ⟨fun hlong => exec_parseOp_ok hlong .fd s, fun hshort => exec_parseOp_error hshort .fd s⟩⟩

/-! ## The fields of a built frame (R50 to R52) -/

section BuiltFrame

variable (little ext : Bool) (id : Nat) (data : Bytes) (field : Nat)

theorem wireFrame_dlc : (wireFrame little ext id data field).getD 4 0 = BitVec.ofNat 8 data.length := by
  have h : ((wireFrame little ext id data field).drop 4).getD 0 0 = BitVec.ofNat 8 data.length := by
    rw [wireFrame_drop]
    rfl
  simpa [List.getD_eq_getElem?_getD] using h

theorem wireFrame_payload : (wireFrame little ext id data field).drop 8 = data ++ zeros (field - data.length) := by
  rw [show 8 = 4 + 4 from rfl, ← List.drop_drop, wireFrame_drop]
  rfl

theorem idValue_wireFrame : idValue little (wireFrame little ext id data field) = builtWord ext id := by
  simp only [wireFrame, List.append_assoc]
  exact idValue_idBytes little (builtWord_lt ext id) _

theorem idValue_wireFrame_swapped {little' : Bool} (h : little' ≠ little) :
    idValue little' (wireFrame little ext id data field) = swapBytes (builtWord ext id) := by
  simp only [wireFrame, List.append_assoc]
  exact idValue_idBytes_swapped h _ _

end BuiltFrame

/-! ## A parse of a built frame (R78, R79, R81) -/

/-- The frame whose identifier word has the value `w` (R52). -/
def frameOfWord (w : Nat) (data : Bytes) (fd : Bool) : Frame := ⟨w % 2 ^ 29, decide (2 ^ 31 ≤ w), data, fd⟩

theorem le_builtWord_iff (ext : Bool) (id : Nat) : 2 ^ 31 ≤ builtWord ext id ↔ ext = true := by
  cases ext <;>
  · simp only [builtWord, Bool.false_eq_true, if_false, if_true, iff_false, iff_true]
    omega

theorem frameOfWord_builtWord {id : Nat} (h : id < 2 ^ 29) (ext : Bool) (data : Bytes) (fd : Bool) :
    frameOfWord (builtWord ext id) data fd = ⟨id, ext, data, fd⟩ := by
  have hid : builtWord ext id % 2 ^ 29 = id := by
    unfold builtWord
    split <;> omega
  simp only [frameOfWord, hid, le_builtWord_iff, Bool.decide_eq_true]

/-- Bit 31 of a reversed word is bit 7 of the word (R81). -/
theorem le_swapBytes_iff (w : Nat) : 2 ^ 31 ≤ swapBytes w ↔ w.testBit 7 = true := by
  rw [Nat.testBit_eq_decide_div_mod_eq, decide_eq_true_iff, swapBytes]
  omega

theorem frameOfWord_swapBytes (w : Nat) (data : Bytes) (fd : Bool) :
    frameOfWord (swapBytes w) data fd = ⟨swapBytes w % 2 ^ 29, w.testBit 7, data, fd⟩ := by
  simp only [frameOfWord, le_swapBytes_iff, Bool.decide_eq_true]

/-- The DLC byte is the data's length in both forms (R53), so a parse reads the data back whatever the two byte orders;
these reach the identifier word alone. -/
theorem wireParse_wireFrame {data : Bytes} {fd : Bool} (h : data.length ≤ formLimit fd) (little little' ext : Bool)
    (id : Nat) :
    wireParse little' fd (wireFrame little ext id data (formLimit fd)) =
      frameOfWord (idValue little' (wireFrame little ext id data (formLimit fd))) data fd := by
  have hdlc : (if fd then data.length % 2 ^ 8 else data.length % 2 ^ 8 % 16) = data.length := by
    cases fd <;>
    · simp only [formLimit, Bool.false_eq_true, if_false, if_true] at h ⊢
      omega
  simp only [wireParse, frameOfWord, wireFrame_dlc, wireFrame_payload, BitVec.toNat_ofNat, hdlc, wireFrame_length h,
    Nat.add_le_add_left h 8, if_true, List.take_left]

/-- PARSE of a built frame, by an operation that takes it in the form it was built in. -/
theorem exec_parseOp_wireFrame {choice : FormChoice} {data : Bytes} {fd : Bool} (hlen : data.length ≤ formLimit fd)
    (hform : usesFd choice (8 + formLimit fd) = fd) (little ext : Bool) (id : Nat) (s : State) :
    exec (parseOp choice (wireFrame little ext id data (formLimit fd))) s = .next (answered s (.ok (.frame
      (frameOfWord (idValue (s.cfg.getLsbD 0) (wireFrame little ext id data (formLimit fd))) data fd)))) := by
  have hsize : (wireFrame little ext id data (formLimit fd)).length = 8 + formLimit fd := wireFrame_length hlen
  rw [exec_parseOp_ok (by omega), hsize, hform, wireParse_wireFrame hlen]

/-- The length alone tells the two forms apart (R56). -/
theorem usesFd_auto (fd : Bool) : usesFd .auto (8 + formLimit fd) = fd := by
  cases fd <;> rfl

/-- Under the byte order it was built in, a frame is read back as it was given (R78, R79). -/
theorem exec_parseOp_sameOrder {choice : FormChoice} {data : Bytes} {fd : Bool} {id : Nat} {s s' : State}
    (hlen : data.length ≤ formLimit fd) (hid : id < 2 ^ 29) (hform : usesFd choice (8 + formLimit fd) = fd)
    (horder : s'.cfg.getLsbD 0 = s.cfg.getLsbD 0) (ext : Bool) :
    exec (parseOp choice (wireFrame (s.cfg.getLsbD 0) ext (BitVec.ofNat 32 id).toNat data (formLimit fd))) s' =
      .next (answered s' (.ok (.frame ⟨id, ext, data, fd⟩))) := by
  have hword : (BitVec.ofNat 32 id).toNat = id := by
    rw [BitVec.toNat_ofNat]
    omega
  rw [exec_parseOp_wireFrame hlen hform, horder, idValue_wireFrame, hword, frameOfWord_builtWord hid]

/-- Under the other byte order a frame's identifier word is read with its bytes reversed (R81). -/
theorem exec_parseOp_otherOrder {choice : FormChoice} {data : Bytes} {fd : Bool} {s s' : State}
    (hlen : data.length ≤ formLimit fd) (hform : usesFd choice (8 + formLimit fd) = fd)
    (horder : s'.cfg.getLsbD 0 ≠ s.cfg.getLsbD 0) (ext : Bool) (id : Nat) :
    exec (parseOp choice (wireFrame (s.cfg.getLsbD 0) ext id data (formLimit fd))) s' =
      .next (answered s' (.ok (.frame
        ⟨swapBytes (builtWord ext id) % 2 ^ 29, (builtWord ext id).testBit 7, data, fd⟩))) := by
  rw [exec_parseOp_wireFrame hlen hform, idValue_wireFrame_swapped _ _ _ _ _ horder, frameOfWord_swapBytes]

/-- Settles O13: PARSE.AUTO takes a frame of 16 bytes as classic, and PARSE.C every frame. -/
theorem classicFrameRoundTrip : Obligations.ClassicFrameRoundTrip := by
  unfold Obligations.ClassicFrameRoundTrip
  intro s id ext data hid hlen
  refine ⟨_, exec_sendOp_ok (fd := some false) hlen _ ext, fun s' horder => ⟨?auto, ?classic⟩⟩
  case auto => exact exec_parseOp_sameOrder (fd := false) hlen hid (usesFd_auto false) horder ext
  case classic => exact exec_parseOp_sameOrder (choice := .classic) (fd := false) hlen hid rfl horder ext

/-- Settles O14: PARSE.AUTO takes a frame of 72 bytes as FD, and PARSE.FD every frame. -/
theorem fdFrameRoundTrip : Obligations.FdFrameRoundTrip := by
  unfold Obligations.FdFrameRoundTrip
  intro s id ext data hid hlen
  refine ⟨_, exec_sendOp_ok (fd := some true) hlen _ ext, fun s' horder => ⟨?auto, ?fd⟩⟩
  case auto => exact exec_parseOp_sameOrder (fd := true) hlen hid (usesFd_auto true) horder ext
  case fd => exact exec_parseOp_sameOrder (choice := .fd) (fd := true) hlen hid rfl horder ext

/-- Settles O16: the other byte order reads the reversed word, and nothing else of the frame differs. -/
theorem mixedByteOrderSwapsIdentifier : Obligations.MixedByteOrderSwapsIdentifier := by
  unfold Obligations.MixedByteOrderSwapsIdentifier
  intro s s' fd ext id data hlen hne
  have hop : (if fd then Instr.buildFd ext id data else .buildC ext id data) = sendOp id data (some ext) (some fd) := by
    cases fd <;> rfl
  rw [hop]
  refine ⟨_, exec_sendOp_ok (fd := some fd) hlen id ext, ?_⟩
  exact exec_parseOp_otherOrder hlen (usesFd_auto fd) hne ext id.toNat

/-! ## The place of `EFF` in a built frame (R52, R80) -/

/-- The bit of the identifier word that stands at bit `p` of a frame, `p < 32` (R32, R33). -/
def wordBit (little : Bool) (p : Nat) : Nat := 8 * (if little then p / 8 else 3 - p / 8) + p % 8

theorem wordBit_eq_effBit_iff (little : Bool) {p : Nat} (hp : p < 32) :
    wordBit little p = 31 ↔ p = if little then 31 else 7 := by
  cases little <;>
  · simp only [wordBit, Bool.false_eq_true, if_false, if_true]
    omega

/-- Byte `k` of an identifier word is its digit `k`, from the other end when big-endian. -/
theorem idBytes_getD (little : Bool) (w : Nat) (rest : Bytes) {k : Nat} (hk : k < 4) :
    (idBytes little w ++ rest).getD k 0 = BitVec.ofNat 8 (w / 2 ^ (8 * if little then k else 3 - k)) := by
  cases little <;> interval_cases k <;> simp [idBytes]

theorem bitRead_idBytes (little : Bool) (w : Nat) (rest : Bytes) {p : Nat} (hp : p < 32) :
    bitRead (idBytes little w ++ rest) p = w.testBit (wordBit little p) := by
  have hbit : p % 8 < 8 := Nat.mod_lt p (by norm_num)
  rw [bitRead, idBytes_getD little w rest (by omega), BitVec.getLsbD_ofNat, Nat.testBit_div_two_pow, wordBit,
    decide_eq_true hbit, Bool.true_and, Nat.add_comm]

theorem bitRead_drop (b : Bytes) (k p : Nat) : bitRead (b.drop k) p = bitRead b (8 * k + p) := by
  have hbyte : (8 * k + p) / 8 = k + p / 8 := by omega
  have hbit : (8 * k + p) % 8 = p % 8 := by omega
  simp only [bitRead, hbyte, hbit, List.getD_eq_getElem?_getD, List.getElem?_drop]

/-- `EXT` is bit 31 of the identifier word, and no other. -/
theorem builtWord_testBit (ext : Bool) (id k : Nat) :
    (builtWord ext id).testBit k = if k = 31 then ext else (builtWord false id).testBit k := by
  have hlow : builtWord false id < 2 ^ 31 :=
    Nat.lt_of_not_le fun h => Bool.false_ne_true ((le_builtWord_iff false id).1 h)
  have hflagged : builtWord true id = 2 ^ 31 ||| builtWord false id := by
    calc builtWord true id
        = 2 ^ 31 * 1 + builtWord false id := Nat.add_comm _ _
      _ = 2 ^ 31 ||| builtWord false id := Nat.two_pow_add_eq_or_of_lt hlow 1
  have hbit : (builtWord true id).testBit k = (decide (31 = k) || (builtWord false id).testBit k) := by
    rw [hflagged, Nat.testBit_or, Nat.testBit_two_pow]
  by_cases hk : k = 31
  · subst hk
    cases ext with
    | false => exact Nat.testBit_lt_two_pow hlow
    | true => exact hbit
  · cases ext with
    | false => rw [if_neg hk]
    | true => rw [if_neg hk, hbit, decide_eq_false (Ne.symm hk), Bool.false_or]

/-- A frame differs from the one built without `EXT` where bit 31 of the identifier word stands, and there alone. -/
theorem bitRead_wireFrame_ext (little ext : Bool) (id : Nat) (data : Bytes) (field p : Nat) :
    bitRead (wireFrame little ext id data field) p =
      if p = (if little then 31 else 7) then ext else bitRead (wireFrame little false id data field) p := by
  by_cases hp : p < 32
  · simp only [wireFrame, List.append_assoc, bitRead_idBytes _ _ _ hp]
    rw [builtWord_testBit]
    simp only [wordBit_eq_effBit_iff little hp]
  · obtain ⟨q, rfl⟩ : ∃ q, p = 8 * 4 + q := ⟨p - 32, by omega⟩
    have hne : ¬ 8 * 4 + q = (if little then 31 else 7) := by split <;> omega
    rw [if_neg hne, ← bitRead_drop, ← bitRead_drop, wireFrame_drop, wireFrame_drop]

/-- Settles O15: both frames are `bitRead_wireFrame_ext`'s, for `EXT` clear and set. -/
theorem effBitIsIndependent : Obligations.EffBitIsIndependent := by
  unfold Obligations.EffBitIsIndependent
  intro s id data hlen
  refine ⟨_, _, exec_sendOp_ok (fd := some false) hlen id false, exec_sendOp_ok (fd := some false) hlen id true,
    ?clear, fun p _ => bitRead_wireFrame_ext _ true _ _ _ p⟩
  case clear => rw [bitRead_wireFrame_ext, if_pos rfl]

/-! ## The fields a parse reads (R28, R53, R74) -/

/-- Byte 4 is no part of the identifier word. -/
theorem idValue_set_dlc (little : Bool) (buf : Bytes) (v : Byte) : idValue little (buf.set 4 v) = idValue little buf := by
  simp [idValue, List.getD_eq_getElem?_getD]

/-- A classic parse reads of byte 4 the low nibble alone (R53, R82). -/
theorem wireParse_classic_set_dlc {buf : Bytes} {v : Byte} (h : 8 ≤ buf.length)
    (hv : v.toNat % 16 = (buf.getD 4 0).toNat % 16) (little : Bool) :
    wireParse little false (buf.set 4 v) = wireParse little false buf := by
  have hdlc : (buf.set 4 v).getD 4 0 = v := by
    simp [List.getD_eq_getElem?_getD, show 4 < buf.length by omega]
  have hpayload : (buf.set 4 v).drop 8 = buf.drop 8 := List.drop_set_of_lt (by omega)
  simp only [wireParse, idValue_set_dlc, hdlc, hpayload, List.length_set, Bool.false_eq_true, if_false, hv]

/-- Settles O18: the two bytes have the same low nibble. -/
theorem classicParseClampsDlc : Obligations.ClassicParseClampsDlc := by
  unfold Obligations.ClassicParseClampsDlc
  intro s buf hlen
  have hnibble : (buf.getD 4 0 &&& 0x0F#8).toNat % 16 = (buf.getD 4 0).toNat % 16 := by
    rw [BitVec.toNat_and, show (0x0F#8).toNat = 2 ^ 4 - 1 from rfl, Nat.and_two_pow_sub_one_eq_mod, Nat.mod_mod]
  have hlen' : 8 ≤ (buf.set 4 (buf.getD 4 0 &&& 0x0F#8)).length := by rwa [List.length_set]
  calc exec (parseOp .classic buf) s
      = .next (answered s (.ok (.frame (wireParse (s.cfg.getLsbD 0) false buf)))) := exec_parseOp_ok hlen .classic s
    _ = exec (parseOp .classic (buf.set 4 (buf.getD 4 0 &&& 0x0F#8))) s := by
      rw [exec_parseOp_ok hlen', ← wireParse_classic_set_dlc hlen hnibble]
      rfl

/-- The payload a parse takes has at most the DLC's length, and lies behind the header (conflict C9). -/
theorem payload_length_le (buf : Bytes) (dlc : Nat) :
    (if 8 + dlc ≤ buf.length then (buf.drop 8).take dlc else []).length ≤ min dlc (buf.length - 8) := by
  split
  · rw [List.length_take, List.length_drop]
  · exact Nat.zero_le _

theorem wireParse_data_length_le (little fd : Bool) (buf : Bytes) :
    (wireParse little fd buf).data.length ≤
      min (if (wireParse little fd buf).fd then (buf.getD 4 0).toNat else (buf.getD 4 0).toNat % 16) (buf.length - 8) :=
  payload_length_le buf _

/-- A frame that a PARSE answers is the one its buffer holds. -/
theorem frame_of_exec_parseOp {choice : FormChoice} {buf : Bytes} {s t : State} {f : Frame}
    (h : exec (parseOp choice buf) s = .next t) (ht : t.response = some (.ok (.frame f))) :
    f = wireParse (s.cfg.getLsbD 0) (usesFd choice buf.length) buf := by
  by_cases hlen : 8 ≤ buf.length
  · rw [exec_parseOp_ok hlen] at h
    obtain rfl := Host.Outcome.next.inj h
    simpa using ht.symm
  · rw [exec_parseOp_error (Nat.lt_of_not_le hlen)] at h
    obtain rfl := Host.Outcome.next.inj h
    simp at ht

/-- Settles O19: the identifier is masked, and the data is bounded by the buffer and, for classic, by the low nibble. -/
theorem parsedFrameKeepsInvariants : Obligations.ParsedFrameKeepsInvariants := by
  unfold Obligations.ParsedFrameKeepsInvariants
  intro s t buf f i hi hexec ht
  obtain ⟨choice, rfl⟩ : ∃ choice, i = parseOp choice buf := by
    rcases hi with rfl | rfl | rfl
    · exact ⟨.auto, rfl⟩
    · exact ⟨.classic, rfl⟩
    · exact ⟨.fd, rfl⟩
  obtain rfl := frame_of_exec_parseOp hexec ht
  have hdata := wireParse_data_length_le (s.cfg.getLsbD 0) (usesFd choice buf.length) buf
  refine ⟨Nat.mod_lt _ (by norm_num), ?fd, ?classic⟩
  case fd =>
    intro _ hbuf
    omega
  case classic =>
    intro hform hshort
    rw [if_neg (Bool.eq_false_iff.1 hform)] at hdata
    omega

end Sys2Proof.Machine

/-! # The signal codec (41_dbc_signal_codec.md)

Each SIG operation delivers what `packRaw` or `unpackRaw` answers, and each way these can end is a lemma of its own
(`packRaw_ok`, `packRaw_outOfRange`, `unpackRaw_ok`, …). The footprint of a signal is an interval in either bit order
(`touches_little`, `touches_big`); the bounds check and the reversal of a Motorola field follow from that. `SIG.ENC` is
`SIG.PACK` of a nearest integer (`nearestRaw_scaleToRaw`), of which `abs_roundNearest_sub_le` is the one fact used. -/

namespace Sys2Proof.Machine

/-! ## Where the bits stand (R95, R96) -/

theorem bitPos_little {sig : DbcSignal} (h : sig.endianness = .little) (i : Nat) : bitPos sig i = sig.startBit + i := by
  simp [bitPos, h]

theorem bitPos_big {sig : DbcSignal} (h : sig.endianness = .big) (i : Nat) : bitPos sig i = motorolaBase sig - i := by
  simp [bitPos, h]

/-- `base` by the byte and the bit inside it that `start_bit` names. -/
theorem motorolaBase_of_startBit {sig : DbcSignal} {byte bit : Int} (h0 : 0 ≤ bit) (h8 : bit < 8)
    (h : sig.startBit = 8 * byte + bit) : motorolaBase sig = 8 * byte + (7 - bit) := by
  unfold motorolaBase
  omega

/-- Settles O20: the Intel formula is the definition's, the Motorola one needs `base` by byte and bit. -/
theorem bitPositionFormulas : Obligations.BitPositionFormulas := by
  unfold Obligations.BitPositionFormulas
  intro sig i
  refine ⟨fun hlittle => bitPos_little hlittle i, fun hbig _ byte bit h0 h8 hstart => ?_⟩
  rw [bitPos_big hbig, motorolaBase_of_startBit h0 h8 hstart]

/-! ## The footprint (R107) -/

theorem touches_little {sig : DbcSignal} (h : sig.endianness = .little) (p : Int) :
    touches sig p ↔ sig.startBit ≤ p ∧ p ≤ sig.startBit + sig.length - 1 := by
  simp only [touches, bitPos_little h]
  constructor
  · rintro ⟨i, hi, rfl⟩
    omega
  · rintro ⟨hlo, hhi⟩
    exact ⟨(p - sig.startBit).toNat, by omega, by omega⟩

theorem touches_big {sig : DbcSignal} (h : sig.endianness = .big) (p : Int) :
    touches sig p ↔ motorolaBase sig - sig.length + 1 ≤ p ∧ p ≤ motorolaBase sig := by
  simp only [touches, bitPos_big h]
  constructor
  · rintro ⟨i, hi, rfl⟩
    omega
  · rintro ⟨hlo, hhi⟩
    exact ⟨(motorolaBase sig - p).toNat, by omega, by omega⟩

/-- Settles O22: `bitPos` is injective, and the footprint is the interval of the signal's bit order. -/
theorem footprintIsAnInterval : Obligations.FootprintIsAnInterval := by
  unfold Obligations.FootprintIsAnInterval
  refine fun sig _ => ⟨fun i j _ _ hpos => bitPos_inj hpos, touches_little, fun hbig base hbase => ?_⟩
  obtain rfl : base = motorolaBase sig := hbase
  exact touches_big hbig

theorem footprintInside_iff_touches (sig : DbcSignal) (n : Nat) :
    footprintInside sig n = true ↔ ∀ p, touches sig p → 0 ≤ p ∧ p < 8 * (n : Int) := by
  rw [footprintInside_iff]
  constructor
  · rintro h p ⟨i, hi, rfl⟩
    exact h i hi
  · exact fun h i hi => h _ ⟨i, hi, rfl⟩

/-- A signal whose footprint is an interval fits when the two ends of the interval are inside. -/
theorem fitsIn_iff_of_touches {sig : DbcSignal} {lo hi : Int} (htouches : ∀ p, touches sig p ↔ lo ≤ p ∧ p ≤ hi)
    (hstart : 0 ≤ sig.startBit) (hne : lo ≤ hi) (n : Nat) : fitsIn sig n ↔ 0 ≤ lo ∧ hi < 8 * (n : Int) := by
  have hfits : fitsIn sig n ↔ ∀ p, touches sig p → 0 ≤ p ∧ p < 8 * (n : Int) := by
    rw [← footprintInside_iff_touches, footprintInside_iff, fitsIn, and_iff_right hstart]
  simp only [hfits, htouches]
  exact Set.Icc_subset_Ico_iff hne

/-- Settles O23: the two ends of the footprint, whose low end is `start_bit` itself in Intel order. -/
theorem boundsCheckIsTwoComparisons : Obligations.BoundsCheckIsTwoComparisons := by
  unfold Obligations.BoundsCheckIsTwoComparisons
  refine fun sig dlc hlen hstart => ⟨fun hlittle => ?little, fun hbig base hbase => ?big⟩
  case little =>
    rw [fitsIn_iff_of_touches (touches_little hlittle) hstart (by omega)]
    omega
  case big =>
    obtain rfl : base = motorolaBase sig := hbase
    exact fitsIn_iff_of_touches (touches_big hbig) hstart (by omega) dlc

/-! ## A Motorola field is a reversed Intel field (R95, R96) -/

/-- Two payloads of one length that hold the same bits are equal. -/
theorem eq_of_bitRead_eq {a b : Bytes} (hlen : a.length = b.length) (h : ∀ p, bitRead a p = bitRead b p) : a = b := by
  refine List.ext_getElem hlen fun k ha hb => BitVec.eq_of_getLsbD_eq fun j hj => ?_
  have hbit := h (8 * k + j)
  have hbyte : (8 * k + j) / 8 = k := by omega
  have hoffset : (8 * k + j) % 8 = j := by omega
  simpa [bitRead, hbyte, hoffset, ha, hb] using hbit

/-- The Intel signal on the same positions as a Motorola one. -/
def reversedIntel (sig : DbcSignal) : DbcSignal :=
  { sig with endianness := .little, startBit := motorolaBase sig - sig.length + 1 }

@[simp] theorem reversedIntel_length (sig : DbcSignal) : (reversedIntel sig).length = sig.length := rfl
@[simp] theorem reversedIntel_startBit (sig : DbcSignal) :
    (reversedIntel sig).startBit = motorolaBase sig - sig.length + 1 := rfl

theorem bitPos_reversedIntel {sig : DbcSignal} (h : sig.endianness = .big) {i : Nat} (hi : i < sig.length) :
    bitPos (reversedIntel sig) (sig.length - 1 - i) = bitPos sig i := by
  rw [bitPos_big h, bitPos_little rfl, reversedIntel_startBit]
  omega

theorem touches_reversedIntel {sig : DbcSignal} (h : sig.endianness = .big) (p : Int) :
    touches (reversedIntel sig) p ↔ touches sig p := by
  rw [touches_big h, touches_little rfl, reversedIntel_startBit, reversedIntel_length]
  omega

theorem footprintInside_reversedIntel {sig : DbcSignal} (h : sig.endianness = .big) (n : Nat) :
    footprintInside (reversedIntel sig) n = footprintInside sig n := by
  rw [Bool.eq_iff_iff]
  simp only [footprintInside_iff_touches, touches_reversedIntel h]

/-- The two writing loops leave the same bit at every position, inside the footprint and outside. -/
theorem putBits_reversedIntel {sig : DbcSignal} {field reversed : Nat} {pl : Bytes} (h : sig.endianness = .big)
    (hrev : ∀ i < sig.length, reversed.testBit i = field.testBit (sig.length - 1 - i))
    (hin : footprintInside sig pl.length = true) :
    putBits sig field sig.length pl = putBits (reversedIntel sig) reversed sig.length pl := by
  obtain ⟨hbits, hrest⟩ := bitRead_putBits field pl ((footprintInside_iff _ _).1 hin)
  obtain ⟨hbits', hrest'⟩ := bitRead_putBits reversed pl
    ((footprintInside_iff _ _).1 ((footprintInside_reversedIntel h _).trans hin))
  refine eq_of_bitRead_eq (by simp) fun q => ?_
  by_cases hq : touches sig q
  · obtain ⟨i, hi, hpos⟩ := hq
    have hmirror : sig.length - 1 - i < sig.length := by omega
    have hbit := hbits i hi
    have hbit' := hbits' _ hmirror
    rw [bitPos_reversedIntel h hi, hrev _ hmirror, Nat.sub_sub_self (by omega)] at hbit'
    rw [hpos, Int.toNat_natCast] at hbit hbit'
    exact hbit.trans hbit'.symm
  · have hq' : ¬ touches (reversedIntel sig) q := mt (touches_reversedIntel h q).1 hq
    rw [hrest q fun i hi hpos => hq ⟨i, hi, hpos⟩]
    exact (hrest' q fun i hi hpos => hq' ⟨i, hi, hpos⟩).symm

/-- Settles O32: both writes make the same check, and where it passes the same payload. -/
theorem motorolaIsReversedIntel : Obligations.MotorolaIsReversedIntel := by
  unfold Obligations.MotorolaIsReversedIntel
  intro sig field reversed pl hbig _ hrev base hbase
  obtain rfl : base = motorolaBase sig := hbase
  change writeBits sig field pl = writeBits (reversedIntel sig) reversed pl
  simp only [writeBits, footprintInside_reversedIntel hbig, reversedIntel_length]
  split
  next hin => rw [putBits_reversedIntel hbig hrev hin]
  next => rfl

/-! ## `pack_raw` and `unpack_raw`, one lemma for each way they can end (R98, R100) -/

section Codec

variable {sig : DbcSignal} {raw : Int} {dlc : Nat} {pl : Bytes}

theorem packRaw_ok (hrange : rawFits sig raw) (hdlc : fitsIn sig dlc) (hpl : fitsIn sig pl.length) :
    ∃ out, packRaw sig raw dlc pl = .ok out ∧ packedInto sig raw pl out := by
  simpa [hrange, hdlc, hpl] using packRaw_cases sig raw dlc pl

theorem packRaw_outOfRange (hrange : ¬ rawFits sig raw) : packRaw sig raw dlc pl = .error .signalOutOfRange := by
  simpa [hrange] using packRaw_cases sig raw dlc pl

theorem packRaw_exceedsMessage (hrange : rawFits sig raw) (hdlc : ¬ fitsIn sig dlc) :
    packRaw sig raw dlc pl = .error .signalExceedsMessage := by
  simpa [hrange, hdlc] using packRaw_cases sig raw dlc pl

theorem packRaw_outOfBounds (hrange : rawFits sig raw) (hdlc : fitsIn sig dlc) (hpl : ¬ fitsIn sig pl.length) :
    packRaw sig raw dlc pl = .error .bitPositionOutOfBounds := by
  simpa [hrange, hdlc, hpl] using packRaw_cases sig raw dlc pl

/-- The range check is the only one that answers `SignalOutOfRange`. -/
theorem packRaw_eq_outOfRange_iff : packRaw sig raw dlc pl = .error .signalOutOfRange ↔ ¬ rawFits sig raw := by
  refine ⟨fun h hrange => ?_, packRaw_outOfRange⟩
  rcases packRaw_cases sig raw dlc pl with ⟨hout, _⟩ | ⟨_, _, he⟩ | ⟨_, _, _, he⟩ | ⟨_, _, _, out, he, _⟩
  · exact hout hrange
  all_goals
    rw [he] at h
    cases h

/-- `pack_raw` sees a raw value in range through its field alone. -/
theorem packRaw_congr {raw' : Int} (h : rawFits sig raw) (h' : rawFits sig raw')
    (hfield : toField sig raw = toField sig raw') : packRaw sig raw dlc pl = packRaw sig raw' dlc pl := by
  simp only [packRaw, (rangeOk_iff _ _).2 h, (rangeOk_iff _ _).2 h', hfield]

theorem unpackRaw_ok (hlen : 1 ≤ sig.length) (hpl : fitsIn sig pl.length) :
    ∃ v, unpackRaw sig pl = .ok v ∧ holdsRaw sig pl v := by
  simpa [hpl] using unpackRaw_cases sig pl hlen

theorem unpackRaw_outOfBounds (hlen : 1 ≤ sig.length) (hpl : ¬ fitsIn sig pl.length) :
    unpackRaw sig pl = .error .bitPositionOutOfBounds := by
  simpa [hpl] using unpackRaw_cases sig pl hlen

/-- The value a payload holds is the value `unpack_raw` answers. -/
theorem unpackRaw_of_holdsRaw {v : Int} (hlen : 1 ≤ sig.length) (hpl : fitsIn sig pl.length)
    (hv : holdsRaw sig pl v) : unpackRaw sig pl = .ok v := by
  obtain ⟨w, hw, hholds⟩ := unpackRaw_ok hlen hpl
  rw [hw, holdsRaw_unique hlen hholds hv]

/-- A payload holds the value packed into it, when the field is wide enough for the value (R108). -/
theorem holdsRaw_of_packedInto {out : Bytes} (hpacked : packedInto sig raw pl out) (hrange : rawFits sig raw)
    (hwidth : sig.sign = .unsigned → raw < 2 ^ sig.length) : holdsRaw sig out raw := by
  obtain ⟨_, hbits, _⟩ := hpacked
  obtain ⟨hunsigned, hsigned⟩ := hrange
  exact ⟨fun i hi => (hbits i hi).symm, fun hs => ⟨hunsigned hs, hwidth hs⟩, hsigned⟩

/-! ## The range of a raw value (R92) -/

theorem rawFits_unsigned_iff (h : sig.sign = .unsigned) : rawFits sig raw ↔ 0 ≤ raw := by
  simp [rawFits, h]

theorem rawFits_signed_iff (h : sig.sign = .signed) :
    rawFits sig raw ↔ -(2 ^ (sig.length - 1)) ≤ raw ∧ raw ≤ 2 ^ (sig.length - 1) - 1 := by
  simp [rawFits, h]

/-- An unsigned raw value is packed modulo `2^length` (R111, conflict C3). -/
theorem packRaw_emod_of_unsigned (hsign : sig.sign = .unsigned) (h0 : 0 ≤ raw) :
    packRaw sig raw dlc pl = packRaw sig (raw % 2 ^ sig.length) dlc pl := by
  have hrange : rawFits sig raw := (rawFits_unsigned_iff hsign).2 h0
  have hrange' : rawFits sig (raw % 2 ^ sig.length) :=
    (rawFits_unsigned_iff hsign).2 (Int.emod_nonneg _ (by positivity))
  refine packRaw_congr hrange hrange' ?_
  rw [toField_eq hrange, toField_eq hrange', Int.emod_emod]

/-! ## What the SIG operations answer (R103 to R106) -/

theorem deliver_map_error_iff {α : Type} {f : α → Result} {x : Except ErrorKind α} {e : ErrorKind} {s : State} :
    deliver (x.map f) s = .next (answered s (.error e)) ↔ x = .error e := by
  cases x <;> simp [Except.map, answered]

theorem exec_sigPack (hw : sig.wellFormed = true) (raw : Int) (dlc : Nat) (pl : Bytes) (s : State) :
    exec (.sigPack sig raw dlc pl) s = deliver ((packRaw sig raw dlc pl).map Result.pl) s := by
  simp [exec, execSigPack, hw]

theorem exec_sigPack_ok {out : Bytes} (hw : sig.wellFormed = true) (h : packRaw sig raw dlc pl = .ok out) (s : State) :
    exec (.sigPack sig raw dlc pl) s = .next (answered s (.ok (.pl out))) := by
  rw [exec_sigPack hw, h]
  rfl

theorem exec_sigPack_error_iff {e : ErrorKind} {s : State} (hw : sig.wellFormed = true) :
    exec (.sigPack sig raw dlc pl) s = .next (answered s (.error e)) ↔ packRaw sig raw dlc pl = .error e := by
  rw [exec_sigPack hw, deliver_map_error_iff]

theorem exec_sigUnpack (hw : sig.wellFormed = true) (pl : Bytes) (s : State) :
    exec (.sigUnpack sig pl) s = deliver ((unpackRaw sig pl).map Result.raw) s := by
  simp [exec, execSigUnpack, hw]

theorem exec_sigUnpack_ok {v : Int} (hw : sig.wellFormed = true) (h : unpackRaw sig pl = .ok v) (s : State) :
    exec (.sigUnpack sig pl) s = .next (answered s (.ok (.raw v))) := by
  rw [exec_sigUnpack hw, h]
  rfl

theorem exec_sigEnc (sig : DbcSignal) (phys : Rat) (dlc : Nat) (pl : Bytes) (s : State) :
    exec (.sigEnc sig phys dlc pl) s = exec (.sigPack sig (scaleToRaw sig phys) dlc pl) s := rfl

theorem exec_sigDec (hw : sig.wellFormed = true) (pl : Bytes) (s : State) :
    exec (.sigDec sig pl) s = deliver ((unpackRaw sig pl).map fun raw => .phys (scaleToPhys sig raw)) s := by
  simp [exec, execSigDec, hw]

theorem exec_sigDec_ok {v : Int} (hw : sig.wellFormed = true) (h : unpackRaw sig pl = .ok v) (s : State) :
    exec (.sigDec sig pl) s = .next (answered s (.ok (.phys (scaleToPhys sig v)))) := by
  rw [exec_sigDec hw, h]
  rfl

theorem length_pos_of_wellFormed (hw : sig.wellFormed = true) : 1 ≤ sig.length :=
  (sig.wellFormed_iff.1 hw).1

end Codec

/-! ## SIG.PACK and SIG.UNPACK (R103, R104, R108, R110, R111) -/

/-- Settles O24: the four ways `pack_raw` ends, delivered. -/
theorem sigPackRule : Obligations.SigPackRule := by
  unfold Obligations.SigPackRule
  refine ⟨fun b => decode_headerWord .sigPack false nofun b, fun s sig raw dlc pl hw =>
    ⟨fun hrange hdlc hpl => ?_, fun hrange => ?_, fun hrange hdlc => ?_, fun hrange hdlc hpl => ?_⟩⟩
  · obtain ⟨out, hout, hpacked⟩ := packRaw_ok hrange hdlc hpl
    exact ⟨out, exec_sigPack_ok hw hout s, hpacked⟩
  · exact (exec_sigPack_error_iff hw).2 (packRaw_outOfRange hrange)
  · exact (exec_sigPack_error_iff hw).2 (packRaw_exceedsMessage hrange hdlc)
  · exact (exec_sigPack_error_iff hw).2 (packRaw_outOfBounds hrange hdlc hpl)

/-- Settles O25: the two ways `unpack_raw` ends, delivered. -/
theorem sigUnpackRule : Obligations.SigUnpackRule := by
  unfold Obligations.SigUnpackRule
  refine ⟨fun b => decode_headerWord .sigUnpack false nofun b, fun s sig pl hw => ⟨fun hpl => ?_, fun hpl => ?_⟩⟩
  · obtain ⟨v, hv, hholds⟩ := unpackRaw_ok (length_pos_of_wellFormed hw) hpl
    exact ⟨v, exec_sigUnpack_ok hw hv s, hholds⟩
  · rw [exec_sigUnpack hw, deliver_map_error_iff]
    exact unpackRaw_outOfBounds (length_pos_of_wellFormed hw) hpl

/-- Settles O29: the payload SIG.PACK answers holds `raw`, and holds no other value. -/
theorem rawValueRoundTrip : Obligations.RawValueRoundTrip := by
  unfold Obligations.RawValueRoundTrip
  intro s s' sig raw dlc pl hw hrange hwidth hdlc hlen
  have hpl : fitsIn sig pl.length := fitsIn_mono hdlc hlen
  obtain ⟨out, hout, hpacked⟩ := packRaw_ok hrange hdlc hpl
  have hholds : holdsRaw sig out raw := holdsRaw_of_packedInto hpacked hrange hwidth
  obtain ⟨hsame, _, hrest⟩ := hpacked
  have hunpack := unpackRaw_of_holdsRaw (length_pos_of_wellFormed hw) (hsame ▸ hpl) hholds
  exact ⟨out, exec_sigPack_ok hw hout s, exec_sigUnpack_ok hw hunpack s', hrest⟩

/-- Settles O30: `SignalOutOfRange` is the range check's answer alone. -/
theorem signedRangeIsExact : Obligations.SignedRangeIsExact := by
  unfold Obligations.SignedRangeIsExact
  intro s sig raw dlc pl hw hsign
  rw [exec_sigPack_error_iff hw, packRaw_eq_outOfRange_iff, rawFits_signed_iff hsign, not_and_or, not_le, not_le]

/-- Settles O31: a value of `2^length` or more is in the range of an unsigned signal, and its field is the one of its
remainder. -/
theorem unsignedOverflowIsTruncated : Obligations.UnsignedOverflowIsTruncated := by
  unfold Obligations.UnsignedOverflowIsTruncated
  intro s sig raw dlc pl hw hsign hbig
  have h0 : 0 ≤ raw := le_trans (by positivity) hbig
  refine ⟨?_, fun hdlc hpl => ?_⟩
  · rw [exec_sigPack hw, exec_sigPack hw, packRaw_emod_of_unsigned hsign h0]
  · obtain ⟨out, hout, hpacked⟩ := packRaw_ok ((rawFits_unsigned_iff hsign).2 h0) hdlc hpl
    exact ⟨out, exec_sigPack_ok hw hout s, hpacked⟩

/-! ## Scenario S6 (R112) -/

/-- The signal of S6, `12|12@0+ (1,0)`. -/
def s6Signal : DbcSignal :=
  { name := "A", startBit := 12, length := 12, endianness := .big, sign := .unsigned, factor := 1, offset := 0 }

theorem packRaw_s6Signal : packRaw s6Signal 0xABC 3 [0, 0, 0] = .ok [0xD5#8, 0x03#8, 0x00#8] := by decide

theorem unpackRaw_s6Signal : unpackRaw s6Signal [0xD5#8, 0x03#8, 0x00#8] = .ok 0xABC := by decide

/-- `pack_raw` reads neither the name nor the scaling of a signal. -/
theorem packRaw_ignores_scaling (sig : DbcSignal) (name : Name) (factor offset : Rat) (raw : Int) (dlc : Nat)
    (pl : Bytes) :
    packRaw { sig with name := name, factor := factor, offset := offset } raw dlc pl = packRaw sig raw dlc pl := rfl

/-- `unpack_raw` reads neither the name nor the scaling of a signal. -/
theorem unpackRaw_ignores_scaling (sig : DbcSignal) (name : Name) (factor offset : Rat) (pl : Bytes) :
    unpackRaw { sig with name := name, factor := factor, offset := offset } pl = unpackRaw sig pl := rfl

/-- Settles O21: the vector evaluated on S6's own signal holds for every name and scaling. -/
theorem conformsToS6 : Obligations.ConformsToS6 := by
  unfold Obligations.ConformsToS6
  intro s sig hstart hlen hbig hsign hfactor
  have hw : sig.wellFormed = true := sig.wellFormed_iff.2 ⟨by omega, by omega, hfactor⟩
  have hsig : sig = { s6Signal with name := sig.name, factor := sig.factor, offset := sig.offset } := by
    simp [s6Signal, ← hstart, ← hlen, ← hbig, ← hsign]
  have hpack := (packRaw_ignores_scaling s6Signal sig.name sig.factor sig.offset _ _ _).trans packRaw_s6Signal
  have hunpack := (unpackRaw_ignores_scaling s6Signal sig.name sig.factor sig.offset _).trans unpackRaw_s6Signal
  rw [← hsig] at hpack hunpack
  exact ⟨exec_sigPack_ok hw hpack s, exec_sigUnpack_ok hw hunpack s⟩

/-! ## Rounding and scaling (R90, R91, R102) -/

/-- `round` answers a nearest integer, whichever neighbour `ROUND_TIE` names at a tie (R91). -/
theorem abs_roundNearest_sub_le (x : Rat) : |(roundNearest x : Rat) - x| ≤ 1 / 2 := by
  have hfloor : (x.floor : Rat) ≤ x := Rat.floor_le x
  have hceil : x < x.floor + 1 := by exact_mod_cast Rat.lt_floor_add_one x
  rw [abs_le]
  unfold roundNearest
  dsimp only
  split_ifs <;> push_cast <;> constructor <;> linarith

/-- Off ties the nearest integer is unique (R91). -/
theorem roundNearest_eq_of_abs_sub_lt {x : Rat} {n : Int} (h : |(n : Rat) - x| < 1 / 2) : roundNearest x = n := by
  have hclose : |((roundNearest x - n : Int) : Rat)| < 1 := by
    calc |((roundNearest x - n : Int) : Rat)| = |((roundNearest x : Rat) - x) - (n - x)| := by push_cast; ring_nf
      _ ≤ |(roundNearest x : Rat) - x| + |(n : Rat) - x| := abs_sub _ _
      _ < 1 := by linarith [abs_roundNearest_sub_le x]
  have hzero : roundNearest x - n = 0 := Int.abs_lt_one_iff.1 (by exact_mod_cast hclose)
  omega

/-- Settles O33: an integer is closer than a half to itself, so the second clause is a case of the third. -/
theorem roundIsNearest : Obligations.RoundIsNearest := by
  unfold Obligations.RoundIsNearest
  exact ⟨abs_roundNearest_sub_le, fun n => roundNearest_eq_of_abs_sub_lt (by simp),
    fun _ _ => roundNearest_eq_of_abs_sub_lt⟩

theorem nearestRaw_scaleToRaw (sig : DbcSignal) (phys : Rat) : nearestRaw sig phys (scaleToRaw sig phys) :=
  abs_roundNearest_sub_le _

/-- Settles O34: the error in raw steps is at most a half, and a step is `factor`. -/
theorem scalingLosesHalfAStep : Obligations.ScalingLosesHalfAStep := by
  unfold Obligations.ScalingLosesHalfAStep
  intro sig phys hfactor
  have hnear : |(scaleToRaw sig phys : Rat) - (phys - sig.offset) / sig.factor| ≤ 1 / 2 :=
    nearestRaw_scaleToRaw sig phys
  have herror : scaleToPhys sig (scaleToRaw sig phys) - phys =
      (scaleToRaw sig phys - (phys - sig.offset) / sig.factor) * sig.factor := by
    unfold scaleToPhys
    field_simp
    ring
  calc |scaleToPhys sig (scaleToRaw sig phys) - phys|
      = |(scaleToRaw sig phys : Rat) - (phys - sig.offset) / sig.factor| * |sig.factor| := by rw [herror, abs_mul]
    _ ≤ 1 / 2 * |sig.factor| := by gcongr
    _ = |sig.factor| / 2 := by ring

/-! ## SIG.ENC and SIG.DEC (R105, R106) -/

/-- Settles O26: the integer is `scale_to_raw` of `phys`. -/
theorem sigEncScalesThenPacks : Obligations.SigEncScalesThenPacks := by
  unfold Obligations.SigEncScalesThenPacks
  exact ⟨fun b => decode_headerWord .sigEnc false nofun b,
    fun sig phys _ => ⟨_, nearestRaw_scaleToRaw sig phys, fun s dlc pl => exec_sigEnc sig phys dlc pl s⟩⟩

/-- Settles O27: what holds of every nearest integer holds of the one SIG.ENC packs. -/
theorem sigEncCompletes : Obligations.SigEncCompletes := by
  unfold Obligations.SigEncCompletes
  intro s sig phys dlc pl hw
  have hnear := nearestRaw_scaleToRaw sig phys
  rw [exec_sigEnc]
  refine ⟨fun ⟨hdlc, hrange⟩ hpl => ?_, fun hout => ?_⟩
  · obtain ⟨out, hout, hpacked⟩ := packRaw_ok (hrange _ hnear) hdlc hpl
    exact ⟨_, out, hnear, hpacked, exec_sigPack_ok hw hout s⟩
  · exact (exec_sigPack_error_iff hw).2 (packRaw_outOfRange (hout _ hnear))

/-- Settles O28: the two ways `unpack_raw` ends, the value scaled. -/
theorem sigDecRule : Obligations.SigDecRule := by
  unfold Obligations.SigDecRule
  refine ⟨fun b => decode_headerWord .sigDec false nofun b, fun s sig pl hw => ⟨fun hpl => ?_, fun hpl => ?_⟩⟩
  · obtain ⟨v, hv, hholds⟩ := unpackRaw_ok (length_pos_of_wellFormed hw) hpl
    exact ⟨v, hholds, exec_sigDec_ok hw hv s⟩
  · rw [exec_sigDec hw, deliver_map_error_iff]
    exact unpackRaw_outOfBounds (length_pos_of_wellFormed hw) hpl

end Sys2Proof.Machine

/-! # The message codec (42_dbc_message_codec.md)

Each loop has one lemma that says how it completes on a list of signals (`encodeSignals_cons_ok`,
`decodeSignals_cons_ok`). From these come, by induction on the list, what MSG.ENC leaves at a position
(`bitRead_encodeSignals_untouched`, `bitRead_encodeSignals_last`) and what MSG.DEC stores under a name
(`valueGet_decodeSignals_other`, `valueGet_decodeSignals_last`). The round trip is the raw value of each signal carried
from the one to the other (`carriedRaw`). -/

namespace Sys2Proof.Machine

/-! ## The loop of MSG.ENC (R120) -/

section Encode

variable {values values' : ValueMap} {dlc : Nat} {sig : DbcSignal} {sigs before after rest : List DbcSignal}
  {phys : Rat} {raw : Int} {pl mid out : Bytes}

/-- What `pack_raw` has checked and done when it completes (R98). -/
theorem packRaw_ok_inv (h : packRaw sig raw dlc pl = .ok out) : fitsIn sig pl.length ∧ packedInto sig raw pl out := by
  rcases packRaw_cases sig raw dlc pl with ⟨_, he⟩ | ⟨_, _, he⟩ | ⟨_, _, _, he⟩ | ⟨_, _, hpl, out', ho, hpacked⟩
  case inr.inr.inr =>
    obtain rfl : out' = out := Except.ok.inj (ho.symm.trans h)
    exact ⟨hpl, hpacked⟩
  all_goals
    rw [he] at h
    cases h

/-- A packable signal is packed into any payload of `dlc` bytes (R98, R120). -/
theorem packRaw_of_packable (h : packable sig phys dlc) (hlen : pl.length = dlc) :
    ∃ out, packRaw sig (scaleToRaw sig phys) dlc pl = .ok out := by
  obtain ⟨hfits, hrange⟩ := h
  obtain ⟨out, hout, _⟩ := packRaw_ok (hrange _ (nearestRaw_scaleToRaw sig phys)) hfits (hlen ▸ hfits)
  exact ⟨out, hout⟩

/-- When the loop completes, its first signal was skipped, or packed and the payload handed on. -/
theorem encodeSignals_cons_ok (h : encodeSignals dlc values (sig :: rest) pl = .ok out) :
    (valueGet values sig.name = none ∧ encodeSignals dlc values rest pl = .ok out) ∨
    ∃ phys mid, valueGet values sig.name = some phys ∧ packRaw sig (scaleToRaw sig phys) dlc pl = .ok mid ∧
      encodeSignals dlc values rest mid = .ok out := by
  cases hv : valueGet values sig.name with
  | none => exact .inl ⟨rfl, encodeSignals_skip hv dlc rest pl ▸ h⟩
  | some phys =>
    cases hp : packRaw sig (scaleToRaw sig phys) dlc pl with
    | error e =>
      rw [encodeSignals_error hv hp] at h
      cases h
    | ok mid => exact .inr ⟨phys, mid, rfl, hp, encodeSignals_ok hv hp rest ▸ h⟩

/-- The loop over a list whose first part completes goes on from the payload of that part. -/
theorem encodeSignals_append (h : encodeSignals dlc values before pl = .ok mid) (rest : List DbcSignal) :
    encodeSignals dlc values (before ++ rest) pl = encodeSignals dlc values rest mid := by
  induction before generalizing pl with
  | nil =>
    obtain rfl : pl = mid := Except.ok.inj h
    rfl
  | cons x before ih =>
    rw [List.cons_append]
    rcases encodeSignals_cons_ok h with ⟨hv, hrest⟩ | ⟨phys, mid', hv, hp, hrest⟩
    · rw [encodeSignals_skip hv, ih hrest]
    · rw [encodeSignals_ok hv hp, ih hrest]

/-- The loop completes when every provided signal is packable (R120). -/
theorem encodeSignals_of_packable
    (h : ∀ sig ∈ sigs, ∀ phys, valueGet values sig.name = some phys → packable sig phys dlc) (hlen : pl.length = dlc) :
    ∃ out, encodeSignals dlc values sigs pl = .ok out := by
  induction sigs generalizing pl with
  | nil => exact ⟨pl, rfl⟩
  | cons sig rest ih =>
    have hrest := fun x hx => h x (List.mem_cons_of_mem sig hx)
    cases hv : valueGet values sig.name with
    | none =>
      rw [encodeSignals_skip hv]
      exact ih hrest hlen
    | some phys =>
      obtain ⟨mid, hmid⟩ := packRaw_of_packable (h sig List.mem_cons_self phys hv) hlen
      rw [encodeSignals_ok hv hmid]
      exact ih hrest ((packRaw_length hmid).trans hlen)

/-- A position that no provided signal touches holds what it held (R38, R125). -/
theorem bitRead_encodeSignals_untouched {p : Nat} (h : encodeSignals dlc values sigs pl = .ok out)
    (hp : p < 8 * pl.length) (hfree : ∀ sig ∈ sigs, valueGet values sig.name ≠ none → ¬ touches sig (p : Int)) :
    bitRead out p = bitRead pl p := by
  induction sigs generalizing pl with
  | nil =>
    obtain rfl : pl = out := Except.ok.inj h
    rfl
  | cons sig rest ih =>
    have hrestFree := fun x hx => hfree x (List.mem_cons_of_mem sig hx)
    rcases encodeSignals_cons_ok h with ⟨_, hrest⟩ | ⟨phys, mid, hv, hpack, hrest⟩
    · exact ih hrest hp hrestFree
    · obtain ⟨_, hlen, _, hsame⟩ := packRaw_ok_inv hpack
      calc bitRead out p = bitRead mid p := ih hrest (hlen ▸ hp) hrestFree
        _ = bitRead pl p := hsame p hp (hfree sig List.mem_cons_self (by simp [hv]))

/-- A bit of a provided signal's field stands in the payload unless a later provided signal touches its position
(R38, R125). -/
theorem bitRead_encodeSignals_last {i : Nat} (h : encodeSignals dlc values (before ++ sig :: after) pl = .ok out)
    (hv : valueGet values sig.name = some phys) (hi : i < sig.length)
    (hfree : ∀ later ∈ after, valueGet values later.name ≠ none → ¬ touches later (bitPos sig i)) :
    bitRead out (bitPos sig i).toNat = rawBit (scaleToRaw sig phys) i := by
  induction before generalizing pl with
  | nil =>
    rcases encodeSignals_cons_ok h with ⟨hnone, _⟩ | ⟨phys', mid, hv', hpack, hrest⟩
    · rw [hv] at hnone
      cases hnone
    · obtain rfl : phys = phys' := Option.some.inj (hv.symm.trans hv')
      obtain ⟨⟨_, hfits⟩, hlen, hbits, _⟩ := packRaw_ok_inv hpack
      obtain ⟨hlo, hhi⟩ := hfits i hi
      have hkept := bitRead_encodeSignals_untouched hrest (p := (bitPos sig i).toNat) (by omega)
        (by rwa [Int.toNat_of_nonneg hlo])
      exact hkept.trans (hbits i hi)
  | cons x before ih =>
    rcases encodeSignals_cons_ok h with ⟨_, hrest⟩ | ⟨_, _, _, _, hrest⟩ <;> exact ih hrest

/-- The loop ends with the error of the first provided signal that no payload takes (R120, D27). -/
theorem encodeSignals_first_error {e : ErrorKind} (hlen : pl.length = dlc)
    (hbefore : ∀ x ∈ before, ∀ q, valueGet values x.name = some q → packable x q dlc)
    (hv : valueGet values sig.name = some phys) (he : ∀ mid, packRaw sig (scaleToRaw sig phys) dlc mid = .error e) :
    encodeSignals dlc values (before ++ sig :: after) pl = .error e := by
  obtain ⟨mid, hmid⟩ := encodeSignals_of_packable hbefore hlen
  rw [encodeSignals_append hmid, encodeSignals_error hv (he mid)]

/-- The loop reads the value map at the names of its signals alone (R120). -/
theorem encodeSignals_congr (h : ∀ sig ∈ sigs, valueGet values sig.name = valueGet values' sig.name) (dlc : Nat)
    (pl : Bytes) : encodeSignals dlc values sigs pl = encodeSignals dlc values' sigs pl := by
  induction sigs generalizing pl with
  | nil => rfl
  | cons sig rest ih =>
    have hrest := ih fun x hx => h x (List.mem_cons_of_mem sig hx)
    simp only [encodeSignals, h sig List.mem_cons_self, hrest]

end Encode

/-! ## The loop of MSG.DEC (R122) -/

section Decode

variable {sig : DbcSignal} {sigs before after rest : List DbcSignal} {pl : Bytes} {m out : ValueMap} {name : Name}

/-- When the loop completes, its first signal was read, and its entry stored before the others. -/
theorem decodeSignals_cons_ok (h : decodeSignals pl (sig :: rest) m = .ok out) :
    ∃ v, unpackRaw sig pl = .ok v ∧ decodeSignals pl rest (valueSet m sig.name (scaleToPhys sig v)) = .ok out := by
  cases hu : unpackRaw sig pl with
  | error e =>
    rw [decodeSignals_error hu] at h
    cases h
  | ok v => exact ⟨v, rfl, decodeSignals_ok hu rest m ▸ h⟩

/-- The loop completes when every signal fits the payload (R122). -/
theorem decodeSignals_of_fitsIn (hlen : ∀ sig ∈ sigs, 1 ≤ sig.length) (h : ∀ sig ∈ sigs, fitsIn sig pl.length)
    (m : ValueMap) : ∃ out, decodeSignals pl sigs m = .ok out := by
  induction sigs generalizing m with
  | nil => exact ⟨m, rfl⟩
  | cons sig rest ih =>
    obtain ⟨v, hv, _⟩ := unpackRaw_ok (hlen sig List.mem_cons_self) (h sig List.mem_cons_self)
    rw [decodeSignals_ok hv]
    exact ih (fun x hx => hlen x (List.mem_cons_of_mem sig hx)) (fun x hx => h x (List.mem_cons_of_mem sig hx)) _

/-- The loop ends with the one error of `unpack_raw` when some signal does not fit the payload (R122, R123). -/
theorem decodeSignals_outOfBounds (hlen : ∀ sig ∈ sigs, 1 ≤ sig.length) (h : ∃ sig ∈ sigs, ¬ fitsIn sig pl.length)
    (m : ValueMap) : decodeSignals pl sigs m = .error .bitPositionOutOfBounds := by
  induction sigs generalizing m with
  | nil => simp at h
  | cons sig rest ih =>
    rcases unpackRaw_cases sig pl (hlen sig List.mem_cons_self) with ⟨_, he⟩ | ⟨hfits, v, hv, _⟩
    · exact decodeSignals_error he rest m
    · rw [decodeSignals_ok hv]
      refine ih (fun x hx => hlen x (List.mem_cons_of_mem sig hx)) ?_ _
      simpa [hfits] using h

/-- A name of none of the signals keeps its entry. -/
theorem valueGet_decodeSignals_other (h : decodeSignals pl sigs m = .ok out) (hname : ∀ sig ∈ sigs, sig.name ≠ name) :
    valueGet out name = valueGet m name := by
  induction sigs generalizing m with
  | nil =>
    obtain rfl : m = out := Except.ok.inj h
    rfl
  | cons sig rest ih =>
    obtain ⟨v, _, hrest⟩ := decodeSignals_cons_ok h
    rw [ih hrest fun x hx => hname x (List.mem_cons_of_mem sig hx), valueGet_valueSet,
      if_neg (hname sig List.mem_cons_self)]

/-- The entry of a name is the one of the last signal that has it (R122, N16). -/
theorem valueGet_decodeSignals_last {v : Int} (h : decodeSignals pl (before ++ sig :: after) m = .ok out)
    (hv : unpackRaw sig pl = .ok v) (hlast : ∀ x ∈ after, x.name ≠ sig.name) :
    valueGet out sig.name = some (scaleToPhys sig v) := by
  induction before generalizing m with
  | nil =>
    obtain ⟨w, hw, hrest⟩ := decodeSignals_cons_ok h
    obtain rfl : v = w := Except.ok.inj (hv.symm.trans hw)
    rw [valueGet_decodeSignals_other hrest hlast, valueGet_valueSet, if_pos rfl]
  | cons x before ih =>
    obtain ⟨_, _, hrest⟩ := decodeSignals_cons_ok h
    exact ih hrest

/-- The names of the map are those it started with and those of the signals (R122). -/
theorem valueGet_decodeSignals_ne_none_iff (h : decodeSignals pl sigs m = .ok out) :
    valueGet out name ≠ none ↔ valueGet m name ≠ none ∨ ∃ sig ∈ sigs, sig.name = name := by
  induction sigs generalizing m with
  | nil =>
    obtain rfl : m = out := Except.ok.inj h
    simp
  | cons sig rest ih =>
    obtain ⟨v, _, hrest⟩ := decodeSignals_cons_ok h
    rw [ih hrest, valueGet_valueSet]
    by_cases hname : sig.name = name <;> simp [hname]

end Decode

/-! ## What the MSG operations answer (R121, R123) -/

section Answers

variable {msg : DbcMessage} {values : ValueMap}

theorem exec_msgEnc (hw : msg.wellFormed = true) (values : ValueMap) (s : State) :
    exec (.msgEnc msg values) s = deliver ((msgEncode msg values).map Result.data) s := by
  simp [exec, execMsgEnc, hw]

theorem exec_msgEnc_ok {out : Bytes} (hw : msg.wellFormed = true) (h : msgEncode msg values = .ok out) (s : State) :
    exec (.msgEnc msg values) s = .next (answered s (.ok (.data out))) := by
  rw [exec_msgEnc hw, h]
  rfl

theorem exec_msgEnc_error {e : ErrorKind} (hw : msg.wellFormed = true) (h : msgEncode msg values = .error e)
    (s : State) : exec (.msgEnc msg values) s = .next (answered s (.error e)) := by
  rw [exec_msgEnc hw, deliver_map_error_iff, h]

theorem exec_msgDec (hw : msg.wellFormed = true) (pl : Bytes) (s : State) :
    exec (.msgDec msg pl) s = deliver ((msgDecode msg pl).map Result.signals) s := by
  simp [exec, execMsgDec, hw]

theorem exec_msgDec_ok {pl : Bytes} {m : ValueMap} (hw : msg.wellFormed = true) (h : msgDecode msg pl = .ok m)
    (s : State) : exec (.msgDec msg pl) s = .next (answered s (.ok (.signals m))) := by
  rw [exec_msgDec hw, h]
  rfl

theorem exec_msgDec_error {pl : Bytes} {e : ErrorKind} (hw : msg.wellFormed = true) (h : msgDecode msg pl = .error e)
    (s : State) : exec (.msgDec msg pl) s = .next (answered s (.error e)) := by
  rw [exec_msgDec hw, deliver_map_error_iff, h]

theorem signal_length_pos (hw : msg.wellFormed = true) {sig : DbcSignal} (hsig : sig ∈ msg.signals) :
    1 ≤ sig.length :=
  ((msg.wellFormed_iff.1 hw).2 sig hsig).1

theorem signal_factor_ne_zero (hw : msg.wellFormed = true) {sig : DbcSignal} (hsig : sig ∈ msg.signals) :
    sig.factor ≠ 0 :=
  ((msg.wellFormed_iff.1 hw).2 sig hsig).2.2

end Answers

/-- Settles O35: the payload starts as zeros, a provided signal writes its own positions alone, and the last one to write
a position decides its bit. -/
theorem msgEncRule : Obligations.MsgEncRule := by
  unfold Obligations.MsgEncRule
  refine ⟨fun b => decode_headerWord .msgEnc false nofun b, fun s msg values hw hpackable => ?_⟩
  obtain ⟨out, hout⟩ := encodeSignals_of_packable hpackable (zeros_length msg.dlc)
  have hlen : out.length = msg.dlc := (encodeSignals_length hout).trans (zeros_length _)
  refine ⟨out, exec_msgEnc_ok hw hout s, hlen, fun p hp hfree => ?untouched, fun before sig after phys hsplit hv =>
    ⟨scaleToRaw sig phys, nearestRaw_scaleToRaw sig phys, fun i hi hfree => ?last⟩⟩
  case untouched =>
    rw [bitRead_encodeSignals_untouched hout (by simpa using hp) hfree, bitRead_zeros]
  case last =>
    rw [hsplit] at hout
    exact bitRead_encodeSignals_last hout hv hi hfree

/-- Settles O36: the two checks of `pack_raw` fail on every payload, so on the one the earlier signals leave. -/
theorem msgEncReportsFirstFailure : Obligations.MsgEncReportsFirstFailure := by
  unfold Obligations.MsgEncReportsFirstFailure
  intro s msg values before after sig phys hw hsplit hv hbefore
  have hnear := nearestRaw_scaleToRaw sig phys
  have hfirst {e : ErrorKind} (he : ∀ mid, packRaw sig (scaleToRaw sig phys) msg.dlc mid = .error e) :
      msgEncode msg values = .error e := by
    rw [msgEncode, hsplit]
    exact encodeSignals_first_error (zeros_length _) hbefore hv he
  exact ⟨fun hout => exec_msgEnc_error hw (hfirst fun _ => packRaw_outOfRange (hout _ hnear)) s,
    fun hin hlong => exec_msgEnc_error hw (hfirst fun _ => packRaw_exceedsMessage (hin _ hnear) hlong) s⟩

/-- Settles O37: the encoder's loop answers alike on both maps, and MSG.ENC reads them nowhere else. -/
theorem msgEncIgnoresUnknownKeys : Obligations.MsgEncIgnoresUnknownKeys := by
  unfold Obligations.MsgEncIgnoresUnknownKeys
  intro s msg values values' h
  have hencode : msgEncode msg values = msgEncode msg values' := encodeSignals_congr h _ _
  simp only [exec, execMsgEnc, hencode]

/-- Settles O38: the loop starts from the empty map and stores one entry per signal. -/
theorem msgDecRule : Obligations.MsgDecRule := by
  unfold Obligations.MsgDecRule
  refine ⟨fun b => decode_headerWord .msgDec false nofun b, fun s msg pl hw => ?_⟩
  have hpos : ∀ sig ∈ msg.signals, 1 ≤ sig.length := fun _ => signal_length_pos hw
  refine ⟨fun hfits => ?fits, fun hlong => ?outside⟩
  case fits =>
    obtain ⟨m, hm⟩ := decodeSignals_of_fitsIn hpos hfits []
    refine ⟨m, exec_msgDec_ok hw hm s, decodeSignals_nodup (m := []) List.nodup_nil hm, fun name => ?names,
      fun before sig after hsplit hlast => ?entry⟩
    case names =>
      rw [valueGet_decodeSignals_ne_none_iff hm]
      simp [valueGet]
    case entry =>
      have hsig : sig ∈ msg.signals := by simp [hsplit]
      obtain ⟨v, hv, hholds⟩ := unpackRaw_ok (hpos sig hsig) (hfits sig hsig)
      rw [hsplit] at hm
      exact ⟨v, hholds, valueGet_decodeSignals_last hm hv hlast⟩
  case outside => exact exec_msgDec_error hw (decodeSignals_outOfBounds hpos hlong []) s

/-! ## The round trip (R126) -/

/-- The raw value that the payload of MSG.ENC carries for a signal: of the value given, or 0. -/
def carriedRaw (values : ValueMap) (sig : DbcSignal) : Int :=
  match valueGet values sig.name with
  | some phys => scaleToRaw sig phys
  | none => 0

theorem carriedRaw_of_some {values : ValueMap} {sig : DbcSignal} {phys : Rat}
    (h : valueGet values sig.name = some phys) : carriedRaw values sig = scaleToRaw sig phys := by
  simp [carriedRaw, h]

theorem carriedRaw_of_none {values : ValueMap} {sig : DbcSignal} (h : valueGet values sig.name = none) :
    carriedRaw values sig = 0 := by
  simp [carriedRaw, h]

/-- Values whose nearest integers a signal's field holds without truncation (R92, R111, R126). -/
def fieldHolds (values : ValueMap) (sig : DbcSignal) : Prop :=
  ∀ phys, valueGet values sig.name = some phys → ∀ raw, nearestRaw sig phys raw →
    rawFits sig raw ∧ (sig.sign = .unsigned → raw < 2 ^ sig.length)

theorem carriedRaw_in_field {values : ValueMap} {sig : DbcSignal} (h : fieldHolds values sig) :
    rawFits sig (carriedRaw values sig) ∧ (sig.sign = .unsigned → carriedRaw values sig < 2 ^ sig.length) := by
  cases hv : valueGet values sig.name with
  | some phys =>
    rw [carriedRaw_of_some hv]
    exact h phys hv _ (nearestRaw_scaleToRaw sig phys)
  | none =>
    rw [carriedRaw_of_none hv]
    have hhalf : (0 : Int) < 2 ^ (sig.length - 1) := by positivity
    exact ⟨⟨fun _ => le_rfl, fun _ => by omega⟩, fun _ => by positivity⟩

/-- A payload whose bits at the signal's positions are those of a value in range holds that value. -/
theorem holdsRaw_of_bits {sig : DbcSignal} {pl : Bytes} {raw : Int}
    (hbits : ∀ i < sig.length, bitRead pl (bitPos sig i).toNat = rawBit raw i) (hrange : rawFits sig raw)
    (hwidth : sig.sign = .unsigned → raw < 2 ^ sig.length) : holdsRaw sig pl raw :=
  holdsRaw_of_packedInto ⟨rfl, hbits, fun _ _ _ => rfl⟩ hrange hwidth

/-- No position is in both footprints (R126). -/
def footprintsDisjoint (a b : DbcSignal) : Prop := ∀ p, touches a p → ¬ touches b p

theorem footprintsDisjoint_symm {a b : DbcSignal} (h : footprintsDisjoint a b) : footprintsDisjoint b a :=
  fun p hb ha => h p ha hb

/-- Of signals with disjoint footprints, two with different names share no position. -/
theorem footprintsDisjoint_of_name_ne {sigs : List DbcSignal} {a b : DbcSignal}
    (hdisjoint : sigs.Pairwise footprintsDisjoint) (ha : a ∈ sigs) (hb : b ∈ sigs) (hname : b.name ≠ a.name) :
    footprintsDisjoint a b := by
  have hsymm : Std.Symm footprintsDisjoint := ⟨fun _ _ => footprintsDisjoint_symm⟩
  refine hdisjoint.forall ha hb fun hab => hname ?_
  rw [hab]

/-- Where names are distinct, a signal is the last one of its name. -/
theorem name_ne_of_mem_after {before after : List DbcSignal} {sig : DbcSignal}
    (h : ((before ++ sig :: after).map DbcSignal.name).Nodup) : ∀ x ∈ after, x.name ≠ sig.name := by
  rw [List.map_append, List.map_cons] at h
  obtain ⟨hsig, _⟩ := List.nodup_cons.1 h.of_append_right
  exact fun x hx hname => hsig (hname ▸ List.mem_map_of_mem hx)

section RoundTrip

variable {values : ValueMap} {dlc : Nat} {before after : List DbcSignal} {sig : DbcSignal} {pl : Bytes}

/-- The payload MSG.ENC answers holds the carried value of each signal: a provided signal's bits are overwritten by no
later one, and no other signal writes where one without a value stands. -/
theorem holdsRaw_carriedRaw (hencode : encodeSignals dlc values (before ++ sig :: after) (zeros dlc) = .ok pl)
    (hnames : ((before ++ sig :: after).map DbcSignal.name).Nodup)
    (hdisjoint : (before ++ sig :: after).Pairwise footprintsDisjoint)
    (hfits : fitsIn sig dlc) (hfield : fieldHolds values sig) : holdsRaw sig pl (carriedRaw values sig) := by
  obtain ⟨hrange, hwidth⟩ := carriedRaw_in_field hfield
  have hfree {other : DbcSignal} (hother : other ∈ before ++ sig :: after) (hname : other.name ≠ sig.name) {i : Nat}
      (hi : i < sig.length) : ¬ touches other (bitPos sig i) :=
    footprintsDisjoint_of_name_ne hdisjoint (by simp) hother hname _ ⟨i, hi, rfl⟩
  refine holdsRaw_of_bits (fun i hi => ?_) hrange hwidth
  cases hv : valueGet values sig.name with
  | some phys =>
    rw [carriedRaw_of_some hv]
    exact bitRead_encodeSignals_last hencode hv hi fun later hlater _ =>
      hfree (by simp [hlater]) (name_ne_of_mem_after hnames later hlater) hi
  | none =>
    obtain ⟨hlo, hhi⟩ := hfits.2 i hi
    have hzero := bitRead_encodeSignals_untouched hencode (p := (bitPos sig i).toNat)
      (by rw [zeros_length]; omega) fun other hother hprovided => by
        rw [Int.toNat_of_nonneg hlo]
        exact hfree hother (fun hname => hprovided (hname ▸ hv)) hi
    simpa [carriedRaw_of_none hv, rawBit] using hzero

end RoundTrip

/-- Settles O39: the payload of MSG.ENC holds the carried raw value of each signal, MSG.DEC reads that one, and scaling
loses at most half a step. -/
theorem messageRoundTrip : Obligations.MessageRoundTrip := by
  unfold Obligations.MessageRoundTrip
  intro s s' msg values hw hnames hdisjoint hfits hfield
  obtain ⟨out, hout⟩ := encodeSignals_of_packable (values := values)
    (fun sig hsig phys hv => ⟨hfits sig hsig, fun raw hraw => (hfield sig hsig phys hv raw hraw).1⟩)
    (zeros_length msg.dlc)
  have hlen : out.length = msg.dlc := (encodeSignals_length hout).trans (zeros_length _)
  have hpos : ∀ sig ∈ msg.signals, 1 ≤ sig.length := fun _ => signal_length_pos hw
  obtain ⟨m, hm⟩ := decodeSignals_of_fitsIn hpos (hlen ▸ hfits) []
  refine ⟨out, m, exec_msgEnc_ok hw hout s, exec_msgDec_ok hw hm s', fun sig hsig => ?_⟩
  have hentry : valueGet m sig.name = some (scaleToPhys sig (carriedRaw values sig)) := by
    obtain ⟨before, after, hsplit⟩ := List.append_of_mem hsig
    rw [hsplit] at hout hnames hdisjoint hm
    have hholds := holdsRaw_carriedRaw hout hnames hdisjoint (hfits sig hsig) (hfield sig hsig)
    have hunpack := unpackRaw_of_holdsRaw (hpos sig hsig) (hlen ▸ hfits sig hsig) hholds
    exact valueGet_decodeSignals_last hm hunpack (name_ne_of_mem_after hnames)
  refine ⟨fun phys hv => ⟨_, hentry, ?_⟩, fun hv => ?_⟩
  · rw [carriedRaw_of_some hv]
    exact scalingLosesHalfAStep sig phys (signal_factor_ne_zero hw hsig)
  · rw [hentry, carriedRaw_of_none hv]
    simp [scaleToPhys]

end Sys2Proof.Machine

/-! # The control operations (43_control_ops.md)

CFG.WR and CFG.RD are facts about `cfgWrite` and `cfgRead` bit by bit. The answer to an illegal header is
`step_illegal`, for no header with a bad field decodes (`header_fields_of_decode_ok`). -/

namespace Sys2Proof

/-! ## The fields of a legal header (R59 to R61) -/

/-- The values of the header field `OP` that name an operation (R60). -/
def opValues : List Nat :=
  [0x01, 0x02, 0x10, 0x11, 0x12, 0x18, 0x19, 0x1A, 0x20, 0x21, 0x22, 0x23, 0x30, 0x31]

/-- The values of `OP` that name a BUILD (R60). -/
def buildOpValues : List Nat := [0x10, 0x11, 0x12]

theorem Op.pattern_mem_opValues (op : Op) : op.pattern.toNat ∈ opValues := by
  cases op <;> decide

theorem Op.pattern_mem_buildOpValues {op : Op} (h : op.takesExt = true) : op.pattern.toNat ∈ buildOpValues := by
  cases op with
  | buildD | buildC | buildFd => decide
  | _ => cases h

/-- `OP` is the low byte of a header (R59). -/
theorem Op.pattern_lt (op : Op) : op.pattern.toNat < 256 := by
  cases op <;> decide

/-- A header as a number: `OP`, plus `0x100` when `EXT = 1` (R59, R64). -/
theorem headerWord_toNat (op : Op) (ext : Bool) :
    (headerWord op ext).toNat = op.pattern.toNat + 0x100 * ext.toNat := by
  cases op <;> cases ext <;> rfl

theorem headerWord_toNat_mod_256 (op : Op) (ext : Bool) : (headerWord op ext).toNat % 256 = op.pattern.toNat := by
  have hop := op.pattern_lt
  rw [headerWord_toNat]
  omega

theorem headerWord_toNat_div_512 (op : Op) (ext : Bool) : (headerWord op ext).toNat / 512 = 0 := by
  have hop := op.pattern_lt
  have hext := ext.toNat_le
  rw [headerWord_toNat]
  omega

/-- A request that decodes has a known `OP`, its reserved bits zero, and `EXT = 1` in a BUILD only (R61). -/
theorem header_fields_of_decode_ok {r : Request} {i : Instr} (h : decode r = .ok i) :
    r.header.toNat % 256 ∈ opValues ∧ r.header.toNat / 512 = 0 ∧
      (r.header.getLsbD 8 = true → r.header.toNat % 256 ∈ buildOpValues) := by
  obtain ⟨op, ext, hext, hheader, _⟩ := decode_ok_inv h
  rw [hheader, headerWord_toNat_mod_256]
  refine ⟨op.pattern_mem_opValues, headerWord_toNat_div_512 op ext, fun hbit => ?_⟩
  have hset : ext = true := (headerExt_headerWord op ext).symm.trans hbit
  exact Op.pattern_mem_buildOpValues (hext hset)

end Sys2Proof

namespace Sys2Proof.Machine

/-- Settles O42: a header that decodes meets none of the three conditions, and one that does not decode is answered
by `step_illegal`. -/
theorem illegalHeaderIsAnswered : Obligations.IllegalHeaderIsAnswered := by
  unfold Obligations.IllegalHeaderIsAnswered
  intro s r rest hr hbad
  cases hd : decode r with
  | error e => exact step_illegal hr hd
  | ok i =>
    obtain ⟨hop, hreserved, hbuild⟩ := header_fields_of_decode_ok hd
    rcases hbad with hunknown | hnonzero | ⟨hext, hother⟩
    · exact absurd hop hunknown
    · exact absurd hreserved hnonzero
    · exact absurd (hbuild hext) hother

/-! ## CFG.WR and CFG.RD, bit by bit (R14, R130, R131) -/

theorem exec_cfgWr (value : Word) (s : State) :
    exec (.cfgWr value) s = .next (answered { s with cfg := cfgWrite s.cfg value } (.ok .none)) := rfl

theorem exec_cfgRd (s : State) : exec .cfgRd s = .next (answered s (.ok (.value (cfgRead s.cfg)))) := rfl

/-- The fields of `CFG` are its bits 0 and 1 (R14). -/
theorem cfgFields_getLsbD (k : Nat) : cfgFields.getLsbD k = decide (k < 2) :=
  Nat.testBit_two_pow_sub_one 2 k

theorem cfgWrite_getLsbD_field (cfg value : Word) {k : Nat} (h : k < 2) :
    (cfgWrite cfg value).getLsbD k = value.getLsbD k := by
  simp [cfgWrite, cfgFields_getLsbD, h]

theorem cfgWrite_getLsbD_reserved (cfg value : Word) {k : Nat} (h : 2 ≤ k) :
    (cfgWrite cfg value).getLsbD k = cfg.getLsbD k := by
  have hfield : cfgFields.getLsbD k = false := by rw [cfgFields_getLsbD, decide_eq_false (Nat.not_lt.2 h)]
  simpa [cfgWrite, hfield] using BitVec.lt_of_getLsbD

/-- The value read is the two fields as R131 writes them. -/
theorem cfgRead_toNat_fields (cfg : Word) :
    (cfgRead cfg).toNat = 2 * (cfg.getLsbD 1).toNat + (cfg.getLsbD 0).toNat := by
  rw [cfgRead_toNat, BitVec.getLsbD, BitVec.getLsbD, Nat.toNat_testBit, Nat.toNat_testBit]
  omega

/-- Settles O3: the next `CFG` is `cfgWrite`, the value's bits below bit 2 and the stored ones from there on. -/
theorem cfgWrSetsTheTwoFields : Obligations.CfgWrSetsTheTwoFields := by
  unfold Obligations.CfgWrSetsTheTwoFields
  exact ⟨fun b => decode_headerWord .cfgWr false nofun b, fun s value =>
    ⟨cfgWrite s.cfg value, exec_cfgWr value s, cfgWrite_getLsbD_field _ _ (by decide),
      cfgWrite_getLsbD_field _ _ (by decide), fun _ hk => cfgWrite_getLsbD_reserved _ _ hk⟩⟩

/-- Settles O4: the value is `cfgRead`. -/
theorem cfgRdAnswersTheTwoFields : Obligations.CfgRdAnswersTheTwoFields := by
  unfold Obligations.CfgRdAnswersTheTwoFields
  exact ⟨fun b => decode_headerWord .cfgRd false nofun b, fun s =>
    ⟨cfgRead s.cfg, exec_cfgRd s, cfgRead_toNat_fields s.cfg⟩⟩

end Sys2Proof.Machine

/-! # The host software (44_host_software.md)

A library call is host actions around one request to the block. What a call gives back is what `exec` answers, in both
directions (`callBlock_next`, `callBlock_refused` and `exec_of_callBlock_ok`), so the statements about `send_raw` and
`encode_can` follow from the cases of those calls (`sendRaw_actions`, `encodeCan_data`). -/

namespace Sys2Proof.Machine

/-! ## The filter (R141) -/

@[simp] theorem filterAccepts_exact_iff (id v : Nat) : filterAccepts id (.exact v) = true ↔ id = v := beq_iff_eq

@[simp] theorem filterAccepts_range_iff (id lo hi : Nat) (inclusive : Bool) :
    filterAccepts id (.range lo hi inclusive) = true ↔ lo ≤ id ∧ id ≤ hi := by
  simp [filterAccepts]

@[simp] theorem filterAccepts_set_iff (id : Nat) (ids : List Nat) : filterAccepts id (.set ids) = true ↔ id ∈ ids :=
  List.contains_iff_mem

/-- Settles O56: one `↔` for each variant that tests the id. -/
theorem filterAcceptsExactly : Obligations.FilterAcceptsExactly := by
  unfold Obligations.FilterAcceptsExactly
  intro id
  exact ⟨rfl, filterAccepts_exact_iff id, filterAccepts_range_iff id, filterAccepts_set_iff id, rfl⟩

/-! ## `send_raw` (R149, R171) -/

/-- A response the caller takes is one that the operation left on its port. -/
theorem exec_of_callBlock_ok {i : Instr} {s t : State} {x : Response} (hd : decode (encode i) = .ok i)
    (h : callBlock i s = .ok (x, t)) : exec i s = .next t ∧ t.response = some x := by
  have hserve : serve (encode i) s = .next t ∧ t.response = some x := by
    unfold callBlock at h
    cases hs : serve (encode i) s with
    | fault f => cases f
    | refused r => simp [hs] at h
    | next u =>
      cases hu : u.response with
      | none => simp [hs, hu] at h
      | some y =>
        obtain ⟨rfl, rfl⟩ : y = x ∧ u = t := by simpa [hs, hu] using h
        exact ⟨rfl, hu⟩
  obtain ⟨hnext, hresponse⟩ := hserve
  cases hp : i.presentable with
  | true => exact ⟨(serve_of_decode_ok hd hp s).symm.trans hnext, hresponse⟩
  | false => simp [serve, hd, hp] at hnext

section SendRaw

variable (id : Word) (data : Bytes) (extended fd : Option Bool)

theorem decode_encode_sendOp : decode (encode (sendOp id data extended fd)) = .ok (sendOp id data extended fd) := by
  match fd with
  | none => exact decode_headerWord .buildD _ (fun _ => rfl) _
  | some false => exact decode_headerWord .buildC _ (fun _ => rfl) _
  | some true => exact decode_headerWord .buildFd _ (fun _ => rfl) _

theorem cfgAfter_sendOp (cfg : Word) : cfgAfter (sendOp id data extended fd) cfg = cfg := by
  match fd with
  | none | some false | some true => rfl

variable {id data extended fd}

/-- The response `send_raw` takes from BUILD is all that BUILD changes. -/
theorem exec_sendOp_of_callBlock_ok {s t : State} {x : Response}
    (h : callBlock (sendOp id data extended fd) s = .ok (x, t)) :
    exec (sendOp id data extended fd) s = .next (answered s x) := by
  obtain ⟨hexec, hresponse⟩ := exec_of_callBlock_ok (decode_encode_sendOp id data extended fd) h
  obtain ⟨_, ht⟩ := exec_next hexec
  rw [cfgAfter_sendOp] at ht
  rw [ht, answered_response] at hresponse
  rw [hexec, ht, Option.some.inj hresponse]

variable (id data extended fd)

/-- The host actions of `send_raw`, each way it can end: no socket; BUILD's bytes written; a write that fails; BUILD
without bytes, its error or refusal propagated. -/
theorem sendRaw_actions (opens writes : Bool) (s : State) :
    (opens = false ∧ (sendRaw opens writes id data extended fd s).2.1 = [.logged]) ∨
    (∃ b t, callBlock (sendOp id data extended fd) s = .ok (.ok (.bytes b), t) ∧
      (sendRaw opens writes id data extended fd s).2.1 = [.socketOpened, .wrote b, .socketClosed]) ∨
    (writes = false ∧
      (sendRaw opens writes id data extended fd s).2.1 = [.socketOpened, .logged, .socketClosed]) ∨
    (sendRaw opens writes id data extended fd s).2.1 = [.socketOpened, .socketClosed] := by
  unfold sendRaw
  cases opens with
  | false => exact .inl ⟨rfl, rfl⟩
  | true =>
    refine .inr ?_
    match callBlock (sendOp id data extended fd) s with
    | .error r => exact .inr (.inr rfl)
    | .ok (.error e, t) => exact .inr (.inr rfl)
    | .ok (.ok r, t) =>
      cases r with
      | bytes b =>
        cases writes with
        | true => exact .inl ⟨b, t, rfl, rfl⟩
        | false => exact .inr (.inl ⟨rfl, rfl⟩)
      | _ => exact .inr (.inr rfl)

end SendRaw

/-- Settles O57: of the four ways `send_raw` can end, three open the socket and close it, and one of these writes what
the block answered. -/
theorem sendRawClosesItsSocket : Obligations.SendRawClosesItsSocket := by
  unfold Obligations.SendRawClosesItsSocket
  intro opens writes id data ext fd s
  rcases sendRaw_actions id data ext fd opens writes s with ⟨_, h⟩ | ⟨b, t, hcall, h⟩ | ⟨_, h⟩ | h
  case inr.inl =>
    rw [h]
    refine ⟨by simp, by simp, fun b' hb' => ?_⟩
    obtain rfl : b' = b := by simpa using hb'
    exact exec_sendOp_of_callBlock_ok hcall
  all_goals simp [h]

/-! ## `encode_can` (R163, R164) -/

theorem catalogByName_eq_none {cat : Catalog} {name : Name} (h : ∀ m ∈ cat, m.name ≠ name) :
    catalogByName cat name = none := by
  simpa [catalogByName] using h

/-- Where names are unique, looking up the name of a message finds that message (R163). -/
theorem catalogByName_of_mem {cat : Catalog} {m : DbcMessage} (hnodup : (cat.map DbcMessage.name).Nodup)
    (hm : m ∈ cat) : catalogByName cat m.name = some m := by
  cases hfind : catalogByName cat m.name with
  | none => simpa using List.find?_eq_none.1 hfind m hm
  | some m' =>
    have hname : m'.name = m.name := by simpa using List.find?_some hfind
    rw [List.inj_on_of_nodup_map hnodup (List.mem_of_find?_eq_some hfind) hm hname]

theorem decode_encode_msgEnc (msg : DbcMessage) (values : ValueMap) :
    decode (encode (.msgEnc msg values)) = .ok (.msgEnc msg values) :=
  decode_headerWord .msgEnc false nofun _

section EncodeCan

variable {cat : Catalog} {m : DbcMessage} {values : ValueMap} {s : State}

theorem encodeCan_data {b : Bytes} {t : State} (hcat : catalogByName cat m.name = some m)
    (h : callBlock (.msgEnc m values) s = .ok (.ok (.data b), t)) :
    encodeCan cat m.name values s = .ok ((m.id, b), t) := by
  simp [encodeCan, hcat, h]

theorem encodeCan_error {e : ErrorKind} {t : State} (hcat : catalogByName cat m.name = some m)
    (h : callBlock (.msgEnc m values) s = .ok (.error e, t)) :
    encodeCan cat m.name values s = .error (.block e) := by
  simp [encodeCan, hcat, h]

theorem encodeCan_refused {r : Refusal} (hcat : catalogByName cat m.name = some m)
    (h : callBlock (.msgEnc m values) s = .error r) :
    encodeCan cat m.name values s = .error (.refused r) := by
  simp [encodeCan, hcat, h]

end EncodeCan

/-- Settles O58: the name is looked up, and `encode_can` then ends as the one call to the block does, which ends as
MSG.ENC does. -/
theorem encodeCanFindsTheMessage : Obligations.EncodeCanFindsTheMessage := by
  unfold Obligations.EncodeCanFindsTheMessage
  intro cat name values s
  refine ⟨fun habsent => by simp [encodeCan, catalogByName_eq_none habsent], ?_⟩
  rintro m hm rfl hnodup hvalues
  have hcat := catalogByName_of_mem hnodup hm
  have hd := decode_encode_msgEnc m values
  exact ⟨fun _ h => encodeCan_data hcat (callBlock_next hd hvalues h),
    fun _ h => encodeCan_error hcat (callBlock_next hd hvalues h),
    fun _ h => encodeCan_refused hcat (callBlock_refused hd hvalues h)⟩

end Sys2Proof.Machine

/-! # Errors and refusals (60_exceptions.md)

`exec_error` says once what an operation that answers an error has done, and `mem_mayRaise_of_resultOf_error` which errors
its function can end in; the statements about R180 and R189 follow from these two. -/

namespace Sys2Proof.Machine

theorem map_eq_error_iff {α : Type} {f : α → Result} {x : Except ErrorKind α} {e : ErrorKind} :
    x.map f = .error e ↔ x = .error e := by
  cases x <;> simp [Except.map]

/-! ## The errors of the frame codec (R70, R74) -/

theorem buildResult_error {fd ext : Bool} {id cfg : Word} {data : Bytes} {e : ErrorKind}
    (h : buildResult fd ext id data cfg = .error e) : e = .invalidLength := by
  rw [buildResult, map_eq_error_iff] at h
  rcases Nat.lt_or_ge (formLimit fd) data.length with hlong | hfits
  · rw [build_error hlong] at h
    exact (Except.error.inj h).symm
  · rw [build_ok hfits] at h
    cases h

theorem parseResult_error {choice : FormChoice} {buf : Bytes} {cfg : Word} {e : ErrorKind}
    (h : parseResult choice buf cfg = .error e) : e = .incomplete := by
  rw [parseResult, map_eq_error_iff] at h
  rcases Nat.lt_or_ge buf.length 8 with hshort | hlong
  · rw [parse_error hshort] at h
    exact (Except.error.inj h).symm
  · rw [parse_ok hlong] at h
    cases h

/-! ## The errors of the signal codec (R98, R99) -/

section Signals

variable {sig : DbcSignal} {sigs : List DbcSignal} {pl : Bytes} {e : ErrorKind}

theorem packRaw_error {raw : Int} {dlc : Nat} (h : packRaw sig raw dlc pl = .error e) :
    e ∈ [ErrorKind.signalOutOfRange, .signalExceedsMessage, .bitPositionOutOfBounds] := by
  rcases packRaw_cases sig raw dlc pl with ⟨_, he⟩ | ⟨_, _, he⟩ | ⟨_, _, _, he⟩ | ⟨_, _, _, _, hok, _⟩
  · simp [Except.error.inj (h.symm.trans he)]
  · simp [Except.error.inj (h.symm.trans he)]
  · simp [Except.error.inj (h.symm.trans he)]
  · cases h.symm.trans hok

/-- `read_bits` raises a missing position only, and sign extension nothing (R99 to R101). -/
theorem unpackRaw_error (h : unpackRaw sig pl = .error e) : e = .bitPositionOutOfBounds := by
  unfold unpackRaw readBits at h
  split_ifs at h with hnegative hinside
  · exact (Except.error.inj h).symm
  · cases h
  · exact (Except.error.inj h).symm

/-! ## The errors of the message codec (R120, R122) -/

/-- The payload has `dlc` bytes throughout, so no signal that passes `check_bounds` misses a position
(`packRaw_own_dlc`). -/
theorem encodeSignals_error_kind {values : ValueMap} {dlc : Nat} (hlen : pl.length = dlc)
    (h : encodeSignals dlc values sigs pl = .error e) : e = .signalOutOfRange ∨ e = .signalExceedsMessage := by
  induction sigs generalizing pl with
  | nil => cases h
  | cons sig rest ih =>
    cases hv : valueGet values sig.name with
    | none =>
      rw [encodeSignals_skip hv] at h
      exact ih hlen h
    | some phys =>
      cases hp : packRaw sig (scaleToRaw sig phys) dlc pl with
      | error e' =>
        rw [encodeSignals_error hv hp] at h
        obtain rfl := Except.error.inj h
        subst hlen
        exact packRaw_own_dlc hp
      | ok pl' =>
        rw [encodeSignals_ok hv hp] at h
        exact ih ((packRaw_length hp).trans hlen) h

theorem decodeSignals_error_kind {m : ValueMap} (h : decodeSignals pl sigs m = .error e) :
    e = .bitPositionOutOfBounds := by
  induction sigs generalizing m with
  | nil => cases h
  | cons sig rest ih =>
    cases hu : unpackRaw sig pl with
    | error e' =>
      rw [decodeSignals_error hu] at h
      obtain rfl := Except.error.inj h
      exact unpackRaw_error hu
    | ok v =>
      rw [decodeSignals_ok hu] at h
      exact ih h

end Signals

/-! ## What an operation that fails has done (R180, R189) -/

section Failure

variable {i : Instr} {s t : State} {e : ErrorKind}

/-- R180's raised-by column, operation by operation. -/
theorem mem_mayRaise_of_resultOf_error {cfg : Word} (h : resultOf i cfg = .error e) : e ∈ mayRaise i := by
  cases i with
  | cfgWr | cfgRd => cases h
  | buildD | buildC | buildFd => exact List.mem_singleton.2 (buildResult_error h)
  | parseAuto | parseC | parseFd => exact List.mem_singleton.2 (parseResult_error h)
  | sigPack | sigEnc => exact packRaw_error (map_eq_error_iff.1 h)
  | sigUnpack | sigDec => exact List.mem_singleton.2 (unpackRaw_error (map_eq_error_iff.1 h))
  | msgEnc msg values =>
    simpa [mayRaise] using encodeSignals_error_kind (zeros_length msg.dlc) (map_eq_error_iff.1 h)
  | msgDec => exact List.mem_singleton.2 (decodeSignals_error_kind (map_eq_error_iff.1 h))

/-- The one operation that writes `CFG` does not fail (R130, R189). -/
theorem cfgAfter_of_resultOf_error {cfg : Word} (h : resultOf i cfg = .error e) : cfgAfter i cfg = cfg := by
  by_contra hne
  obtain ⟨value, rfl⟩ := eq_cfgWr_of_cfgAfter_ne hne
  cases h

/-- An error answered is the error of the operation's function, and the response port alone has changed. -/
theorem exec_error (h : exec i s = .next t) (he : t.response = some (.error e)) :
    resultOf i s.cfg = .error e ∧ t = answered s (.error e) := by
  obtain ⟨_, rfl⟩ := exec_next h
  cases hresult : resultOf i s.cfg with
  | ok r =>
    rw [hresult] at he
    cases he
  | error e' =>
    rw [hresult] at he
    cases he
    rw [cfgAfter_of_resultOf_error hresult]
    exact ⟨rfl, rfl⟩

end Failure

/-! ## A step that serves nothing (R192, log entries 6 and 7) -/

theorem step_of_requests_nil {s : State} (h : s.requests = []) : step s = .next s := by
  simp [step, fetch_nil h, idle]

theorem serve_of_not_presentable {r : Request} {i : Instr} (hd : decode r = .ok i) (hp : i.presentable = false)
    (s : State) : serve r s = .refused .notPresentable := by
  simp [serve, hd, hp]

/-! ## The statements of the family -/

/-- Settles O40: the codes are the table's, and an error answered is one the operation's function ends in. -/
theorem errorKindsByOperation : Obligations.ErrorKindsByOperation := by
  unfold Obligations.ErrorKindsByOperation
  refine ⟨fun _ => rfl, rfl, fun i s t e h he => ?_⟩
  obtain ⟨hresult, _⟩ := exec_error h he
  exact mem_mayRaise_of_resultOf_error hresult

/-- Settles O41: the second half of `exec_error`. -/
theorem errorLeavesStateUnchanged : Obligations.ErrorLeavesStateUnchanged := by
  unfold Obligations.ErrorLeavesStateUnchanged
  intro i s t e h he
  exact (exec_error h he).2

/-- Settles O50: the idle step (R192), and the refusal before the operation runs. -/
theorem stepWithoutServableRequest : Obligations.StepWithoutServableRequest := by
  unfold Obligations.StepWithoutServableRequest
  refine ⟨fun s => step_of_requests_nil, fun s r rest i hr hd hp => ?_⟩
  rw [step_of_requests hr, serve_of_not_presentable hd hp]

end Sys2Proof.Machine

/-! # Reset (70_reset_and_hazards.md)

What reset leaves are the field lemmas of `State.reset`; what CFG.RD answers on it is `exec_cfgRd` at that register. -/

namespace Sys2Proof.Machine

/-- A zero register reads as zero: the fields are cut out of it by a mask (R131). -/
@[simp] theorem cfgRead_zero : cfgRead 0#32 = 0#32 := BitVec.zero_and

/-- Settles O1: CFG.RD answers `cfgRead` of the register, and the register is zero. -/
theorem resetLeavesCfgZero : Obligations.ResetLeavesCfgZero := by
  unfold Obligations.ResetLeavesCfgZero
  have hread : exec .cfgRd State.reset = .next (answered State.reset (.ok (.value 0#32))) := by
    rw [exec_cfgRd, reset_cfg, cfgRead_zero]
  exact ⟨reset_cfg, hread⟩

/-- Settles O2: the reset values of the two port fields (log entry 2). -/
theorem resetPortsAreEmpty : Obligations.ResetPortsAreEmpty := by
  unfold Obligations.ResetPortsAreEmpty
  exact ⟨reset_requests, reset_response⟩

end Sys2Proof.Machine
